-- ==== Sys2Proof/Word.lean ====
section
/-! DEFINITION. The widths of the machine's values (spec 10_state.md R10, 30_encoding.md R61): every
architectural value is an unsigned bit vector of the width the spec gives it. -/

namespace Sys2Proof

/-- A register `V[i]`, a timer, `SP`, a memory cell (10_state.md R10). -/
abbrev Byte := BitVec 8

/-- An opcode, `I`, `PC`, a `STACK` entry, a field of `FAULT` (10_state.md R10, R21). -/
abbrev Word := BitVec 16

/-- A 4-bit field of an opcode: `op`, `x`, `y` or `n` (30_encoding.md R61). -/
abbrev Nibble := BitVec 4

/-- The 12-bit field `nnn` of an opcode (30_encoding.md R61). -/
abbrev Addr12 := BitVec 12

/-- One row of the display: 64 one-bit cells, bit `c` being column `c` (20_memory.md R52; log 13). -/
abbrev FbRow := BitVec 64

end Sys2Proof
end

