-- ==== Sys2Proof/Config.lean ====
section
/-! DEFINITION. The parameters of the hardware (spec 00_scope.md R5) and the two open values: the font bytes
and the random input. An open value is an opaque constant: nothing can be proved of what it is. -/

namespace Sys2Proof.Config

/-- `MEM_SIZE`: addresses 0x000..0xFFF (00_scope.md R5). -/
def memSize : Nat := 0x1000

/-- `PROG_BASE`, where the program image is placed and where `PC` starts (00_scope.md R5). -/
def progBase : Nat := 0x200

/-- `FONT_BASE`, where the glyphs are placed (00_scope.md R5). -/
def fontBase : Nat := 0x100

/-- 16 glyphs of 5 bytes: 80 bytes, 0x100..0x14F (00_scope.md R5). -/
def fontBytes : Nat := 80

/-- `MAX_IMAGE` = 0x1000 - 0x200 (00_scope.md R5). -/
def maxImage : Nat := 3584

/-- `DISP_W` columns (00_scope.md R5). -/
def dispW : Nat := 64

/-- `DISP_H` rows (00_scope.md R5). -/
def dispH : Nat := 32

/-- OPEN (00_scope.md R5, 92_eei_decisions.md D13): the glyph byte `FONT[j]`, `j` in 0..79. Free; log 1. -/
opaque font : Nat → Byte

/-- OPEN (10_state.md R22, 92_eei_decisions.md D14): the `rnd` input of the draw with this number. Free; log 2. -/
opaque rnd : Nat → Byte

end Sys2Proof.Config
end

