-- ==== Sys2Proof/Syntax.lean ====
section
/-! DEFINITION. The closed set of 34 instructions (spec 00_scope.md R1, 30_encoding.md R65), one constructor per
row of opcode_table.json, in the table's order. Fields have the widths of 30_encoding.md R61, so that no operand
can be out of its range (R63). -/

namespace Sys2Proof

inductive Instr where
  /-- `00E0` CLS (R120). -/
  | cls
  /-- `00EE` RET (R80). -/
  | ret
  /-- `1nnn` JP nnn (R81). -/
  | jpNnn (nnn : Addr12)
  /-- `2nnn` CALL nnn (R82). -/
  | callNnn (nnn : Addr12)
  /-- `3xnn` SE Vx, nn (R83). -/
  | seVxNn (x : Nibble) (nn : Byte)
  /-- `4xnn` SNE Vx, nn (R84). -/
  | sneVxNn (x : Nibble) (nn : Byte)
  /-- `5xy0` SE Vx, Vy (R85). -/
  | seVxVy (x y : Nibble)
  /-- `6xnn` LD Vx, nn (R90). -/
  | ldVxNn (x : Nibble) (nn : Byte)
  /-- `7xnn` ADD Vx, nn (R91). -/
  | addVxNn (x : Nibble) (nn : Byte)
  /-- `8xy0` LD Vx, Vy (R92). -/
  | ldVxVy (x y : Nibble)
  /-- `8xy1` OR Vx, Vy (R93). -/
  | orVxVy (x y : Nibble)
  /-- `8xy2` AND Vx, Vy (R94). -/
  | andVxVy (x y : Nibble)
  /-- `8xy3` XOR Vx, Vy (R95). -/
  | xorVxVy (x y : Nibble)
  /-- `8xy4` ADD Vx, Vy (R96). -/
  | addVxVy (x y : Nibble)
  /-- `8xy5` SUB Vx, Vy (R97). -/
  | subVxVy (x y : Nibble)
  /-- `8xy6` SHR Vx (R98); `y` is decoded and not used (R67). -/
  | shrVx (x y : Nibble)
  /-- `8xy7` SUBN Vx, Vy (R99). -/
  | subnVxVy (x y : Nibble)
  /-- `8xyE` SHL Vx (R100); `y` is decoded and not used (R67). -/
  | shlVx (x y : Nibble)
  /-- `9xy0` SNE Vx, Vy (R86). -/
  | sneVxVy (x y : Nibble)
  /-- `Annn` LD I, nnn (R110). -/
  | ldINnn (nnn : Addr12)
  /-- `Bnnn` JP V0, nnn (R87). -/
  | jpV0Nnn (nnn : Addr12)
  /-- `Cxnn` RND Vx, nn (R101). -/
  | rndVxNn (x : Nibble) (nn : Byte)
  /-- `Dxyn` DRW Vx, Vy, n (R121). -/
  | drwVxVyN (x y n : Nibble)
  /-- `Ex9E` SKP Vx (R130). -/
  | skpVx (x : Nibble)
  /-- `ExA1` SKNP Vx (R131). -/
  | sknpVx (x : Nibble)
  /-- `Fx07` LD Vx, DT (R132). -/
  | ldVxDt (x : Nibble)
  /-- `Fx0A` LD Vx, K (R133). -/
  | ldVxK (x : Nibble)
  /-- `Fx15` LD DT, Vx (R134). -/
  | ldDtVx (x : Nibble)
  /-- `Fx18` LD ST, Vx (R135). -/
  | ldStVx (x : Nibble)
  /-- `Fx1E` ADD I, Vx (R111). -/
  | addIVx (x : Nibble)
  /-- `Fx29` LD F, Vx (R112). -/
  | ldFVx (x : Nibble)
  /-- `Fx33` LD B, Vx (R113). -/
  | ldBVx (x : Nibble)
  /-- `Fx55` LD [I], Vx (R114). -/
  | ldMemVx (x : Nibble)
  /-- `Fx65` LD Vx, [I] (R115). -/
  | ldVxMem (x : Nibble)
  deriving DecidableEq, Repr

end Sys2Proof
end

