-- ==== Sys2Proof/WellFormed.lean ====
section
/-! DEFINITION. What is well formed. An `Instr` needs no check: its fields have exactly the widths of spec
30_encoding.md R61, so every term is an instruction. What can be ill formed is a word that matches no row of the
opcode map (R65, R66) and a program image that is too long (70_reset_and_hazards.md R171). -/

namespace Sys2Proof

/-- One row of the opcode map: a word `w` is the row's instruction exactly when `w &&& mask = pattern` (30_encoding.md R65). -/
structure OpcodeRow where
  mask    : Word
  pattern : Word
  deriving DecidableEq, Repr

/-- Row `w` of the map selects the word (30_encoding.md R65). -/
def OpcodeRow.selects (r : OpcodeRow) (w : Word) : Bool := w &&& r.mask == r.pattern

/-- The row of an instruction, column for column the map of 30_encoding.md R65. -/
def Instr.row : Instr → OpcodeRow
  | .cls          => ⟨0xFFFF#16, 0x00E0#16⟩
  | .ret          => ⟨0xFFFF#16, 0x00EE#16⟩
  | .jpNnn _      => ⟨0xF000#16, 0x1000#16⟩
  | .callNnn _    => ⟨0xF000#16, 0x2000#16⟩
  | .seVxNn _ _   => ⟨0xF000#16, 0x3000#16⟩
  | .sneVxNn _ _  => ⟨0xF000#16, 0x4000#16⟩
  | .seVxVy _ _   => ⟨0xF00F#16, 0x5000#16⟩
  | .ldVxNn _ _   => ⟨0xF000#16, 0x6000#16⟩
  | .addVxNn _ _  => ⟨0xF000#16, 0x7000#16⟩
  | .ldVxVy _ _   => ⟨0xF00F#16, 0x8000#16⟩
  | .orVxVy _ _   => ⟨0xF00F#16, 0x8001#16⟩
  | .andVxVy _ _  => ⟨0xF00F#16, 0x8002#16⟩
  | .xorVxVy _ _  => ⟨0xF00F#16, 0x8003#16⟩
  | .addVxVy _ _  => ⟨0xF00F#16, 0x8004#16⟩
  | .subVxVy _ _  => ⟨0xF00F#16, 0x8005#16⟩
  | .shrVx _ _    => ⟨0xF00F#16, 0x8006#16⟩
  | .subnVxVy _ _ => ⟨0xF00F#16, 0x8007#16⟩
  | .shlVx _ _    => ⟨0xF00F#16, 0x800E#16⟩
  | .sneVxVy _ _  => ⟨0xF00F#16, 0x9000#16⟩
  | .ldINnn _     => ⟨0xF000#16, 0xA000#16⟩
  | .jpV0Nnn _    => ⟨0xF000#16, 0xB000#16⟩
  | .rndVxNn _ _  => ⟨0xF000#16, 0xC000#16⟩
  | .drwVxVyN _ _ _ => ⟨0xF000#16, 0xD000#16⟩
  | .skpVx _      => ⟨0xF0FF#16, 0xE09E#16⟩
  | .sknpVx _     => ⟨0xF0FF#16, 0xE0A1#16⟩
  | .ldVxDt _     => ⟨0xF0FF#16, 0xF007#16⟩
  | .ldVxK _      => ⟨0xF0FF#16, 0xF00A#16⟩
  | .ldDtVx _     => ⟨0xF0FF#16, 0xF015#16⟩
  | .ldStVx _     => ⟨0xF0FF#16, 0xF018#16⟩
  | .addIVx _     => ⟨0xF0FF#16, 0xF01E#16⟩
  | .ldFVx _      => ⟨0xF0FF#16, 0xF029#16⟩
  | .ldBVx _      => ⟨0xF0FF#16, 0xF033#16⟩
  | .ldMemVx _    => ⟨0xF0FF#16, 0xF055#16⟩
  | .ldVxMem _    => ⟨0xF0FF#16, 0xF065#16⟩

/-- The word of an instruction as the Encoding line of its rule draws it, bits 15:12 first (30_encoding.md R61, R62): a
literal nibble, then `x` in bits 11:8 and `y` in 7:4 and `n` in 3:0, or `x` and `nn` in 7:0, or `nnn` in 11:0; a literal where
the pattern has one. Statements hold `decode` and `encode` against it. -/
def Instr.layout : Instr → Word
  | .cls            => 0x0#4 ++ 0x0#4 ++ 0xE#4 ++ 0x0#4
  | .ret            => 0x0#4 ++ 0x0#4 ++ 0xE#4 ++ 0xE#4
  | .jpNnn nnn      => 0x1#4 ++ nnn
  | .callNnn nnn    => 0x2#4 ++ nnn
  | .seVxNn x nn    => 0x3#4 ++ x ++ nn
  | .sneVxNn x nn   => 0x4#4 ++ x ++ nn
  | .seVxVy x y     => 0x5#4 ++ x ++ y ++ 0x0#4
  | .ldVxNn x nn    => 0x6#4 ++ x ++ nn
  | .addVxNn x nn   => 0x7#4 ++ x ++ nn
  | .ldVxVy x y     => 0x8#4 ++ x ++ y ++ 0x0#4
  | .orVxVy x y     => 0x8#4 ++ x ++ y ++ 0x1#4
  | .andVxVy x y    => 0x8#4 ++ x ++ y ++ 0x2#4
  | .xorVxVy x y    => 0x8#4 ++ x ++ y ++ 0x3#4
  | .addVxVy x y    => 0x8#4 ++ x ++ y ++ 0x4#4
  | .subVxVy x y    => 0x8#4 ++ x ++ y ++ 0x5#4
  | .shrVx x y      => 0x8#4 ++ x ++ y ++ 0x6#4
  | .subnVxVy x y   => 0x8#4 ++ x ++ y ++ 0x7#4
  | .shlVx x y      => 0x8#4 ++ x ++ y ++ 0xE#4
  | .sneVxVy x y    => 0x9#4 ++ x ++ y ++ 0x0#4
  | .ldINnn nnn     => 0xA#4 ++ nnn
  | .jpV0Nnn nnn    => 0xB#4 ++ nnn
  | .rndVxNn x nn   => 0xC#4 ++ x ++ nn
  | .drwVxVyN x y n => 0xD#4 ++ x ++ y ++ n
  | .skpVx x        => 0xE#4 ++ x ++ 0x9E#8
  | .sknpVx x       => 0xE#4 ++ x ++ 0xA1#8
  | .ldVxDt x       => 0xF#4 ++ x ++ 0x07#8
  | .ldVxK x        => 0xF#4 ++ x ++ 0x0A#8
  | .ldDtVx x       => 0xF#4 ++ x ++ 0x15#8
  | .ldStVx x       => 0xF#4 ++ x ++ 0x18#8
  | .addIVx x       => 0xF#4 ++ x ++ 0x1E#8
  | .ldFVx x        => 0xF#4 ++ x ++ 0x29#8
  | .ldBVx x        => 0xF#4 ++ x ++ 0x33#8
  | .ldMemVx x      => 0xF#4 ++ x ++ 0x55#8
  | .ldVxMem x      => 0xF#4 ++ x ++ 0x65#8

/-- The 34 rows of 30_encoding.md R65, in its order: one instruction of each constructor gives its row. -/
def opcodeMap : List OpcodeRow :=
  [Instr.cls, .ret, .jpNnn 0, .callNnn 0, .seVxNn 0 0, .sneVxNn 0 0, .seVxVy 0 0, .ldVxNn 0 0, .addVxNn 0 0,
   .ldVxVy 0 0, .orVxVy 0 0, .andVxVy 0 0, .xorVxVy 0 0, .addVxVy 0 0, .subVxVy 0 0, .shrVx 0 0,
   .subnVxVy 0 0, .shlVx 0 0, .sneVxVy 0 0, .ldINnn 0, .jpV0Nnn 0, .rndVxNn 0 0, .drwVxVyN 0 0 0].map Instr.row
  ++ [Instr.skpVx 0, .sknpVx 0, .ldVxDt 0, .ldVxK 0, .ldDtVx 0, .ldStVx 0, .addIVx 0, .ldFVx 0, .ldBVx 0,
   .ldMemVx 0, .ldVxMem 0].map Instr.row

/-- A word is an instruction: some row of the map selects it (30_encoding.md R65, R66). -/
def wordWellFormed (w : Word) : Bool := opcodeMap.any (·.selects w)

/-- A program image is acceptable to `Reset`: at most 3584 bytes (70_reset_and_hazards.md R171). -/
def imageWellFormed (image : List Byte) : Bool := image.length ≤ Config.maxImage

end Sys2Proof
end

