-- ==== Sys2Proof/Decode.lean ====
section
/-! DEFINITION. Fields, decode and encode (spec 30_encoding.md R60 to R68). -/

namespace Sys2Proof

/-- Why bytes are not an instruction. -/
inductive DecodeError where
  /-- The word matches no row of the opcode map (30_encoding.md R66). -/
  | unrecognized (w : Word)
  /-- Fewer than the two bytes every instruction has (30_encoding.md R60). -/
  | truncated
  deriving DecidableEq, Repr

/-- `op` = `opcode[15:12]` (30_encoding.md R61). -/
def fieldOp (w : Word) : Nibble := w.extractLsb' 12 4

/-- `x` = `opcode[11:8]` (30_encoding.md R61). -/
def fieldX (w : Word) : Nibble := w.extractLsb' 8 4

/-- `y` = `opcode[7:4]` (30_encoding.md R61). -/
def fieldY (w : Word) : Nibble := w.extractLsb' 4 4

/-- `n` = `opcode[3:0]` (30_encoding.md R61). -/
def fieldN (w : Word) : Nibble := w.extractLsb' 0 4

/-- `nn` = `opcode[7:0]` (30_encoding.md R61). -/
def fieldNn (w : Word) : Byte := w.extractLsb' 0 8

/-- `nnn` = `opcode[11:0]` (30_encoding.md R61). -/
def fieldNnn (w : Word) : Addr12 := w.extractLsb' 0 12

/-- The secondary selector of family 8, the low nibble (30_encoding.md R64). -/
def decodeFamily8 (w : Word) : Except DecodeError Instr :=
  match (fieldN w).toNat with
  | 0x0 => .ok (.ldVxVy (fieldX w) (fieldY w))
  | 0x1 => .ok (.orVxVy (fieldX w) (fieldY w))
  | 0x2 => .ok (.andVxVy (fieldX w) (fieldY w))
  | 0x3 => .ok (.xorVxVy (fieldX w) (fieldY w))
  | 0x4 => .ok (.addVxVy (fieldX w) (fieldY w))
  | 0x5 => .ok (.subVxVy (fieldX w) (fieldY w))
  | 0x6 => .ok (.shrVx (fieldX w) (fieldY w))
  | 0x7 => .ok (.subnVxVy (fieldX w) (fieldY w))
  | 0xE => .ok (.shlVx (fieldX w) (fieldY w))
  | _ => .error (.unrecognized w)

/-- The secondary selector of family E, the low byte (30_encoding.md R64). -/
def decodeFamilyE (w : Word) : Except DecodeError Instr :=
  match (fieldNn w).toNat with
  | 0x9E => .ok (.skpVx (fieldX w))
  | 0xA1 => .ok (.sknpVx (fieldX w))
  | _ => .error (.unrecognized w)

/-- The secondary selector of family F, the low byte (30_encoding.md R64). -/
def decodeFamilyF (w : Word) : Except DecodeError Instr :=
  match (fieldNn w).toNat with
  | 0x07 => .ok (.ldVxDt (fieldX w))
  | 0x0A => .ok (.ldVxK (fieldX w))
  | 0x15 => .ok (.ldDtVx (fieldX w))
  | 0x18 => .ok (.ldStVx (fieldX w))
  | 0x1E => .ok (.addIVx (fieldX w))
  | 0x29 => .ok (.ldFVx (fieldX w))
  | 0x33 => .ok (.ldBVx (fieldX w))
  | 0x55 => .ok (.ldMemVx (fieldX w))
  | 0x65 => .ok (.ldVxMem (fieldX w))
  | _ => .error (.unrecognized w)

/-- `decode(w)` of 30_encoding.md R64, total on all 65536 words: the top nibble selects the family, families 0, 8,
E and F look at a secondary selector, families 5 and 9 require the low nibble 0 (90_conflicts.md C2, C4). -/
def decodeWord (w : Word) : Except DecodeError Instr :=
  match (fieldOp w).toNat with
  | 0x0 => if w = 0x00E0#16 then .ok .cls else if w = 0x00EE#16 then .ok .ret else .error (.unrecognized w)
  | 0x1 => .ok (.jpNnn (fieldNnn w))
  | 0x2 => .ok (.callNnn (fieldNnn w))
  | 0x3 => .ok (.seVxNn (fieldX w) (fieldNn w))
  | 0x4 => .ok (.sneVxNn (fieldX w) (fieldNn w))
  | 0x5 => if fieldN w = 0#4 then .ok (.seVxVy (fieldX w) (fieldY w)) else .error (.unrecognized w)
  | 0x6 => .ok (.ldVxNn (fieldX w) (fieldNn w))
  | 0x7 => .ok (.addVxNn (fieldX w) (fieldNn w))
  | 0x8 => decodeFamily8 w
  | 0x9 => if fieldN w = 0#4 then .ok (.sneVxVy (fieldX w) (fieldY w)) else .error (.unrecognized w)
  | 0xA => .ok (.ldINnn (fieldNnn w))
  | 0xB => .ok (.jpV0Nnn (fieldNnn w))
  | 0xC => .ok (.rndVxNn (fieldX w) (fieldNn w))
  | 0xD => .ok (.drwVxVyN (fieldX w) (fieldY w) (fieldN w))
  | 0xE => decodeFamilyE w
  | 0xF => decodeFamilyF w
  | _ => .error (.unrecognized w)

/-- The opcode `hi ++ lo` of two consecutive bytes, big-endian: the byte at the lower address is `opcode[15:8]`
(20_memory.md R43, 30_encoding.md R60). -/
def wordOfBytes (hi lo : Byte) : Word := hi.setWidth 16 <<< 8 ||| lo.setWidth 16

/-- The byte of an opcode at the lower address, `opcode[15:8]` (20_memory.md R43). -/
def wordHi (w : Word) : Byte := w.extractLsb' 8 8

/-- The byte of an opcode at the higher address, `opcode[7:0]` (20_memory.md R43). -/
def wordLo (w : Word) : Byte := w.extractLsb' 0 8

/-- Decode from bytes: the instruction at the head and the bytes after it; the length is always 2 (30_encoding.md R60, R68). -/
def decode : List Byte → Except DecodeError (Instr × List Byte)
  | hi :: lo :: rest =>
    match decodeWord (wordOfBytes hi lo) with
    | .ok i => .ok (i, rest)
    | .error e => .error e
  | _ => .error .truncated

/-- A word of format XNN (30_encoding.md R62): `op ++ x ++ nn`. -/
def packXNN (op x : Nibble) (nn : Byte) : Word := op.setWidth 16 <<< 12 ||| x.setWidth 16 <<< 8 ||| nn.setWidth 16

/-- A word of formats XY and XYN (30_encoding.md R62): `op ++ x ++ y ++ n`. -/
def packXYN (op x y n : Nibble) : Word :=
  op.setWidth 16 <<< 12 ||| x.setWidth 16 <<< 8 ||| y.setWidth 16 <<< 4 ||| n.setWidth 16

/-- A word of format NNN (30_encoding.md R62): `op ++ nnn`. -/
def packNNN (op : Nibble) (nnn : Addr12) : Word := op.setWidth 16 <<< 12 ||| nnn.setWidth 16

/-- The word of an instruction, from the pattern column of 30_encoding.md R65. -/
def encode : Instr → Word
  | .cls            => 0x00E0#16
  | .ret            => 0x00EE#16
  | .jpNnn nnn      => packNNN 0x1#4 nnn
  | .callNnn nnn    => packNNN 0x2#4 nnn
  | .seVxNn x nn    => packXNN 0x3#4 x nn
  | .sneVxNn x nn   => packXNN 0x4#4 x nn
  | .seVxVy x y     => packXYN 0x5#4 x y 0x0#4
  | .ldVxNn x nn    => packXNN 0x6#4 x nn
  | .addVxNn x nn   => packXNN 0x7#4 x nn
  | .ldVxVy x y     => packXYN 0x8#4 x y 0x0#4
  | .orVxVy x y     => packXYN 0x8#4 x y 0x1#4
  | .andVxVy x y    => packXYN 0x8#4 x y 0x2#4
  | .xorVxVy x y    => packXYN 0x8#4 x y 0x3#4
  | .addVxVy x y    => packXYN 0x8#4 x y 0x4#4
  | .subVxVy x y    => packXYN 0x8#4 x y 0x5#4
  | .shrVx x y      => packXYN 0x8#4 x y 0x6#4
  | .subnVxVy x y   => packXYN 0x8#4 x y 0x7#4
  | .shlVx x y      => packXYN 0x8#4 x y 0xE#4
  | .sneVxVy x y    => packXYN 0x9#4 x y 0x0#4
  | .ldINnn nnn     => packNNN 0xA#4 nnn
  | .jpV0Nnn nnn    => packNNN 0xB#4 nnn
  | .rndVxNn x nn   => packXNN 0xC#4 x nn
  | .drwVxVyN x y n => packXYN 0xD#4 x y n
  | .skpVx x        => packXNN 0xE#4 x 0x9E#8
  | .sknpVx x       => packXNN 0xE#4 x 0xA1#8
  | .ldVxDt x       => packXNN 0xF#4 x 0x07#8
  | .ldVxK x        => packXNN 0xF#4 x 0x0A#8
  | .ldDtVx x       => packXNN 0xF#4 x 0x15#8
  | .ldStVx x       => packXNN 0xF#4 x 0x18#8
  | .addIVx x       => packXNN 0xF#4 x 0x1E#8
  | .ldFVx x        => packXNN 0xF#4 x 0x29#8
  | .ldBVx x        => packXNN 0xF#4 x 0x33#8
  | .ldMemVx x      => packXNN 0xF#4 x 0x55#8
  | .ldVxMem x      => packXNN 0xF#4 x 0x65#8

/-- The two bytes of an instruction in memory order (20_memory.md R43). -/
def encodeBytes (i : Instr) : List Byte := [wordHi (encode i), wordLo (encode i)]

/-- The word with the low `nbits` bits of `w`, every bit above them 0: opcode_table.json numbers bit 0 as the least
significant bit of the one 16-bit word an instruction is. -/
def tableWord (nbits w : Nat) : Word := BitVec.ofNat 16 (w % 2 ^ nbits)

/-- The instruction the decoder reads from an instruction whose bits, numbered as opcode_table.json numbers them, are `w`. -/
def decodeTableWord (nbits w : Nat) : Option Instr :=
  match decode [wordHi (tableWord nbits w), wordLo (tableWord nbits w)] with
  | .ok (i, _) => some i
  | .error _ => none

end Sys2Proof
end

