-- ==== Sys2Proof/Machine/State.lean ====
section
/-! DEFINITION. The architectural state (spec 10_state.md R10), the reasons a step can stop, and the state after
`Reset` with the empty image (10_state.md R25, 70_reset_and_hazards.md R170). -/

namespace Sys2Proof.Machine

/-- `STATUS` (10_state.md R21). -/
inductive Status where
  | running
  | halted
  deriving DecidableEq, Repr

/-- `FAULT.cause` (60_exceptions.md R140); `none` is "no fault". -/
inductive FaultCause where
  | none
  /-- Code 1 (R141): the word matches no row of the opcode map. -/
  | unrecognizedOpcode
  /-- Code 2 (R142): a fetched byte would lie above 0xFFF. -/
  | fetchOutOfRange
  /-- Code 3 (R143): a data byte would lie above 0xFFF. -/
  | dataOutOfRange
  /-- Code 4 (R144): a call when 16 return addresses are held. -/
  | stackOverflow
  /-- Code 5 (R145): a return when no return address is held. -/
  | stackUnderflow
  /-- Code 6 (R146): a key code above 15. -/
  | keyIndexOutOfRange
  deriving DecidableEq, Repr

/-- The record `FAULT` (10_state.md R21). -/
structure FaultRecord where
  cause  : FaultCause
  opcode : Word
  pc     : Word
  info   : Word
  deriving DecidableEq, Repr

/-- `FAULT = (0, 0x0000, 0x0000, 0x0000)` (10_state.md R25). -/
def FaultRecord.clear : FaultRecord := ⟨.none, 0#16, 0#16, 0#16⟩

/-- Main memory (20_memory.md R40), the cells that differ from what an unlisted address reads as, addresses rising. -/
abbrev Memory := List Host.Cell

/-- The reasons a step stops without a next state. The six faults of the spec (60_exceptions.md R140) are not
among them: they take the machine to a HALTED next state. -/
inductive Fault where
  /-- Raised by CALL and RET when `SP` is in 0x10..0xFE, so that the entry it selects does not exist
  (10_state.md R16, R24: no state reached from `Reset` has such an `SP`). Safe: the model stops. Log 3. -/
  | noStackEntry (sp : Byte)
  deriving DecidableEq, Repr

/-- The operations the model gives no meaning. -/
inductive Refusal where
  /-- An instruction without a meaning yet. Raised by no arm. Safe. -/
  | notModelled (mnemonic : String)
  /-- `Reset` with an image longer than 3584 bytes has no result (70_reset_and_hazards.md R171). Raised by
  `resetImage`, never by an instruction. Safe. -/
  | imageTooLong (length : Nat)
  deriving DecidableEq, Repr

/-- The state of the VM core (10_state.md R10). The last two fields are the model's own: they carry the input `rnd`
of the coming steps (10_state.md R22; log 2). -/
structure State where
  /-- `MEM` (R27). -/
  mem      : Memory
  /-- `V0..VF` (R11, R12). -/
  v        : Vector Byte 16
  /-- `I` (R13). -/
  i        : Word
  /-- `PC` (R14). -/
  pc       : Word
  /-- `SP` (R15). -/
  sp       : Byte
  /-- `STACK` (R16). -/
  stack    : Vector Word 16
  /-- `DT` (R17). -/
  dt       : Byte
  /-- `ST` (R18). -/
  st       : Byte
  /-- `K`, `true` is 1, pressed (R19). -/
  k        : Vector Bool 16
  /-- `FB`, row by row: cell `64*r + c` is bit `c` of row `r` (R20; log 13). -/
  fb       : Vector FbRow 32
  /-- `STATUS` (R21). -/
  status   : Status
  /-- `FAULT` (R21). -/
  fault    : FaultRecord
  /-- `rnd` inputs already handed over by the driver, the next draw's first. -/
  rndIn    : List Byte
  /-- The number of draws taken from the free stream. -/
  rndCount : Nat
  deriving DecidableEq, Repr

/-- The state after `Reset` with the empty image (10_state.md R25): memory lists nothing, so it reads as the font at
0x100..0x14F and as zero elsewhere. -/
def State.reset : State where
  mem      := []
  v        := Vector.replicate 16 0x00#8
  i        := 0x0000#16
  pc       := 0x0200#16
  sp       := 0x0F#8
  stack    := Vector.replicate 16 0x0000#16
  dt       := 0x00#8
  st       := 0x00#8
  k        := Vector.replicate 16 false
  fb       := Vector.replicate 32 0#64
  status   := .running
  fault    := FaultRecord.clear
  rndIn    := []
  rndCount := 0

end Sys2Proof.Machine
end

