-- ==== Sys2Proof/Machine/Ops.lean ====
section
/-! DEFINITION. The named operations over memory, registers, stack, keys and display, fault entry, and the fetch. -/

namespace Sys2Proof.Machine

/-! ## Main memory -/

/-- The glyph byte `FONT[j]` (spec 00_scope.md R5; log 1). -/
def fontByte (j : Nat) : Byte := Config.font j

/-- What a cell holds after `Reset` before an image is placed: the font at 0x100..0x14F, zero elsewhere (20_memory.md
R41; the zeros are the spec's decision D12, log 4). An address that memory does not list reads as this. -/
def Memory.unlisted (a : Nat) : Byte :=
  if Config.fontBase ≤ a ∧ a < Config.fontBase + Config.fontBytes then fontByte (a - Config.fontBase) else 0x00#8

/-- The byte of memory at an address (20_memory.md R42, R43, once the range check has passed). -/
def Memory.read : Memory → Nat → Byte
  | [], a => Memory.unlisted a
  | (b, w) :: rest, a => if a = b then w else Memory.read rest a

/-- Memory without an entry for the address. -/
def Memory.erase (m : Memory) (a : Nat) : Memory := m.filter fun c => c.1 != a

/-- Memory with an entry put in its place among rising addresses. -/
def Memory.insert : Memory → Nat → Byte → Memory
  | [], a, w => [(a, w)]
  | (b, u) :: rest, a, w => if a < b then (a, w) :: (b, u) :: rest else (b, u) :: Memory.insert rest a w

/-- `MEM[a] <- w` (20_memory.md R42, once the range check has passed); a byte equal to what the unlisted address reads
as leaves no entry. -/
def Memory.write (m : Memory) (a : Nat) (w : Byte) : Memory :=
  if w = Memory.unlisted a then Memory.erase m a else Memory.insert (Memory.erase m a) a w

/-- Bytes written at ascending addresses from `a` (20_memory.md R44). -/
def Memory.writeBytes : Memory → Nat → List Byte → Memory
  | m, _, [] => m
  | m, a, w :: ws => Memory.writeBytes (Memory.write m a w) (a + 1) ws

/-- The canonical form: addresses strictly rising, inside 0x000..0xFFF (20_memory.md R40), no entry that says what
the unlisted address reads as. -/
abbrev Memory.wf (m : Memory) : Prop :=
  m.Pairwise (fun c d => c.1 < d.1) ∧ ∀ c ∈ m, c.1 < Config.memSize ∧ c.2 ≠ Memory.unlisted c.1

/-! ## Registers -/

/-- `V[x]` (10_state.md R11). -/
def State.getV (s : State) (x : Nibble) : Byte := s.v[x.toNat]'x.isLt

/-- `V[x] <- b` (10_state.md R11). -/
def State.setV (s : State) (x : Nibble) (b : Byte) : State := { s with v := s.v.set x.toNat b x.isLt }

/-- The register that holds the flag, `VF` = `V[15]` (10_state.md R12). -/
def vf : Nibble := 0xF#4

/-- `I <- w` (10_state.md R13). -/
def State.setI (s : State) (w : Word) : State := { s with i := w }

/-- `DT <- b` (10_state.md R17). -/
def State.setDt (s : State) (b : Byte) : State := { s with dt := b }

/-- `ST <- b` (10_state.md R18). -/
def State.setSt (s : State) (b : Byte) : State := { s with st := b }

/-- `PC <- w` (10_state.md R14). -/
def State.setPc (s : State) (w : Word) : State := { s with pc := w }

/-- `SP <- b` (10_state.md R15). -/
def State.setSp (s : State) (b : Byte) : State := { s with sp := b }

/-- The call stack replaced as a whole. -/
def State.setStack (s : State) (f : Vector Word 16) : State := { s with stack := f }

/-- The key cells replaced as a whole. -/
def State.setK (s : State) (f : Vector Bool 16) : State := { s with k := f }

/-- The `rnd` bytes handed over for coming draws. -/
def State.setRndIn (s : State) (l : List Byte) : State := { s with rndIn := l }

/-- The number of the next free draw. -/
def State.setRndCount (s : State) (n : Nat) : State := { s with rndCount := n }

/-- Main memory replaced as a whole. -/
def State.setMem (s : State) (m : Memory) : State := { s with mem := m }

/-- The display replaced as a whole: all writes of one instruction take effect together (43_display.md R123). -/
def State.setFb (s : State) (f : Vector FbRow 32) : State := { s with fb := f }

/-- `npc`, the address after the instruction at `PC` (10_state.md R14, 30_encoding.md R70). Meanings run with `PC`
still at the instruction's own address `a`. -/
def State.npc (s : State) : Word := s.pc + 2#16

/-- `PC <- npc`, the default next address (30_encoding.md R70). -/
def State.advance (s : State) : State := s.setPc s.npc

/-! ## The call stack -/

/-- `STACK[SP] <- w; SP <- (SP - 1) mod 256` (10_state.md R16); none where `SP` selects no entry. -/
def State.push (s : State) (w : Word) : Option State :=
  if h : s.sp.toNat < 16 then some ((s.setStack (s.stack.set s.sp.toNat w h)).setSp (s.sp - 1#8)) else none

/-- `SP <- (SP + 1) mod 256; result = STACK[SP]` (10_state.md R16); none where the new `SP` selects no entry. -/
def State.pop (s : State) : Option (Word × State) :=
  if h : (s.sp + 1#8).toNat < 16 then some (s.stack[(s.sp + 1#8).toNat]'h, s.setSp (s.sp + 1#8)) else none

/-- 16 return addresses are held (10_state.md R15, R16). -/
def State.stackFull (s : State) : Bool := s.sp == 0xFF#8

/-- No return address is held (10_state.md R15, R16). -/
def State.stackEmpty (s : State) : Bool := s.sp == 0x0F#8

/-! ## Keys and display -/

/-- `K[k] = 1` (10_state.md R19). -/
def State.keyDown (s : State) (k : Nibble) : Bool := s.k[k.toNat]'k.isLt

/-- The least code of a pressed key, the first hit of an ascending scan (44_keypad_timers.md R133). -/
def State.firstKey (s : State) : Option (Fin 16) := (List.finRange 16).find? fun j => s.k[j.val]

/-- The display cell of a row and a column (20_memory.md R52). -/
def State.cell (s : State) (row : Fin 32) (col : Fin 64) : Bool := s.fb[row.val].getLsbD col.val

/-! ## The random input -/

/-- The byte `rnd` of the current step (10_state.md R22): the one the driver handed over, else a free one (log 2). -/
def State.rnd (s : State) : Byte :=
  match s.rndIn with
  | b :: _ => b
  | [] => Config.rnd s.rndCount

/-- The draw is used up. -/
def State.takeRnd (s : State) : State :=
  match s.rndIn with
  | _ :: rest => s.setRndIn rest
  | [] => s.setRndCount (s.rndCount + 1)

/-! ## Fault entry -/

/-- The 3-bit code of a cause (60_exceptions.md R140). -/
def FaultCause.code : FaultCause → BitVec 3
  | .none               => 0#3
  | .unrecognizedOpcode => 1#3
  | .fetchOutOfRange    => 2#3
  | .dataOutOfRange     => 3#3
  | .stackOverflow      => 4#3
  | .stackUnderflow     => 5#3
  | .keyIndexOutOfRange => 6#3

/-- The bit of a status: 0 RUNNING, 1 HALTED (10_state.md R21). -/
def Status.bit : Status → BitVec 1
  | .running => 0#1
  | .halted  => 1#1

/-- Fault entry (60_exceptions.md R152), applied to the state the step began in, so that every write of the step is
discarded and `PC` stays at the instruction's address `a`: `STATUS <- HALTED; FAULT <- (cause, opcode, a, info)`.
There is no return from it (R153). -/
def State.halt (s : State) (cause : FaultCause) (opcode info : Word) : State :=
  { s with status := .halted, fault := ⟨cause, opcode, s.pc, info⟩ }

/-- `raise` in the execution of an instruction: the opcode recorded is the instruction's word (log 8). -/
def raise (cause : FaultCause) (i : Instr) (info : Word) (s : State) : Host.Outcome State Fault Refusal :=
  .next (s.halt cause (encode i) info)

/-! ## Fetch -/

/-- `FetchRead(addr)`: the byte, or the address reported by `FetchOutOfRange` (20_memory.md R43). -/
def State.fetchRead (s : State) (a : Nat) : Except Nat Byte :=
  if a ≥ Config.memSize then .error a else .ok (s.mem.read a)

/-- The opcode at `PC`, first byte first (20_memory.md R43), or the first address above 0xFFF. -/
def State.fetch (s : State) : Except Nat Word :=
  match s.fetchRead s.pc.toNat with
  | .error a => .error a
  | .ok hi =>
    match s.fetchRead (s.pc.toNat + 1) with
    | .error a => .error a
    | .ok lo => .ok (wordOfBytes hi lo)

/-- `raise FetchOutOfRange(a)`: no opcode was read, so 0x0000 is recorded (60_exceptions.md R140, R142). -/
def State.fetchFault (s : State) (a : Nat) : State := s.halt .fetchOutOfRange 0x0000#16 (BitVec.ofNat 16 a)

/-- `raise UnrecognizedOpcode(opcode)` (60_exceptions.md R140, R141). -/
def State.decodeFault (s : State) (w : Word) : State := s.halt .unrecognizedOpcode w 0x0000#16

/-- The machine set up to fetch the word next: the word's two bytes at `PC`, RUNNING with `FAULT` clear, and `PC` at
0x200 where it was no fetchable address (log 6). -/
def State.placeWord (s : State) (w : Word) : State :=
  let a : Word := if s.pc.toNat + 1 < Config.memSize then s.pc else BitVec.ofNat 16 Config.progBase
  { s with
    mem    := Memory.writeBytes s.mem a.toNat [wordHi w, wordLo w]
    pc     := a
    status := .running
    fault  := FaultRecord.clear }

end Sys2Proof.Machine
end

