-- ==== Sys2Proof/Machine/Operands.lean ====
section
/-! DEFINITION. The operand forms of the machine (spec 30_encoding.md R63, 20_memory.md R48): zero-extended immediates,
skip targets, and the one data addressing mode, base `I` plus an offset. -/

namespace Sys2Proof.Machine

/-- `zext_16(nnn)` (30_encoding.md R63). -/
def zext12 (nnn : Addr12) : Word := nnn.setWidth 16

/-- `zext_16` of a byte (00_scope.md section 5). -/
def zext8 (b : Byte) : Word := b.setWidth 16

/-- A taken skip leaves `PC = npc + 2`, an untaken one `PC = npc` (30_encoding.md R72). -/
def State.skipIf (s : State) (taken : Bool) : State := s.setPc (if taken then s.npc + 2#16 else s.npc)

/-- The effective address `I + k`, an unbounded natural number (20_memory.md R48). -/
def State.dataAddr (s : State) (k : Nat) : Nat := s.i.toNat + k

/-- The lowest address above 0xFFF among `count` bytes at `I`, which is `max(I, 0x1000)`, if there is one
(20_memory.md R48). -/
def State.dataFault (s : State) (count : Nat) : Option Nat :=
  if count = 0 then none
  else if s.dataAddr (count - 1) ≥ Config.memSize then some (max s.i.toNat Config.memSize) else none

/-- All addresses are checked before any state changes (20_memory.md R48): the instruction raises `DataOutOfRange`
or does what it does. -/
def guardData (i : Instr) (count : Nat) (s s' : State) : Host.Outcome State Fault Refusal :=
  match s.dataFault count with
  | some a => raise .dataOutOfRange i (BitVec.ofNat 16 a) s
  | none => .next s'

/-- The bytes `V[0], ..., V[x]` (42_index_memory.md R114). -/
def State.regsUpTo (s : State) (x : Nibble) : List Byte := s.v.toList.take (x.toNat + 1)

/-- The register file after bytes `MEM[I], ..., MEM[I + x]` have gone to `V[0], ..., V[x]` (42_index_memory.md R115). -/
def State.loadedRegs (s : State) (x : Nibble) : Vector Byte 16 :=
  Vector.ofFn fun j : Fin 16 => if j.val ≤ x.toNat then s.mem.read (s.dataAddr j.val) else s.v[j.val]

/-- `V[j] <- MEM[I + j]` for `j` in 0..x (42_index_memory.md R115). -/
def State.loadRegs (s : State) (x : Nibble) : State := { s with v := s.loadedRegs x }

/-- The decimal digits of a byte, hundreds, tens, ones, one a byte (42_index_memory.md R113). -/
def bcdDigits (b : Byte) : List Byte :=
  [BitVec.ofNat 8 (b.toNat / 100), BitVec.ofNat 8 (b.toNat / 10 % 10), BitVec.ofNat 8 (b.toNat % 10)]

/-- One sprite row placed on a display row: pixel `c` of the byte is bit `7 - c` and lands on column `x0 + c`; a column
above 63 is dropped (43_display.md R122). -/
def spriteRow (b : Byte) (x0 : Nat) : FbRow := (b.reverse.setWidth 64) <<< x0

/-- The cells a sprite flips on display row `row`: sprite row `row - y0`, read at `I + (row - y0)`; a row above 31 is
dropped because the display has none (43_display.md R122). -/
def State.spriteMask (s : State) (x0 y0 n row : Nat) : FbRow :=
  if y0 ≤ row ∧ row < y0 + n then spriteRow (s.mem.read (s.dataAddr (row - y0))) x0 else 0#64

/-- `FB` after the XOR of a sprite (43_display.md R121; each cell is written at most once, R123, log 11). -/
def State.xorSprite (s : State) (x0 y0 n : Nat) : Vector FbRow 32 :=
  Vector.ofFn fun row : Fin 32 => s.fb[row.val] ^^^ s.spriteMask x0 y0 n row.val

end Sys2Proof.Machine
end

