-- ==== Sys2Proof/Machine/Flags.lean ====
section
/-! DEFINITION. The flag computations (spec 41_alu.md R89, 10_state.md R12): `VF` is written whole with 0x00 or 0x01,
computed from the operand values the instruction began with. -/

namespace Sys2Proof.Machine

/-- The byte written to `VF` (41_alu.md R89). -/
def flagByte (b : Bool) : Byte := if b then 0x01#8 else 0x00#8

/-- "the 9-bit sum exceeded 255" (41_alu.md R96). -/
def carryFlag (a b : Byte) : Byte := flagByte (a.toNat + b.toNat > 255)

/-- No borrow: the minuend is not below the subtrahend (41_alu.md R97, R99; 90_conflicts.md C8). -/
def noBorrowFlag (minuend subtrahend : Byte) : Byte := flagByte (minuend.toNat ≥ subtrahend.toNat)

/-- The bit shifted out at the bottom (41_alu.md R98). -/
def lowBitFlag (a : Byte) : Byte := flagByte (a.getLsbD 0)

/-- The bit shifted out at the top (41_alu.md R100). -/
def highBitFlag (a : Byte) : Byte := flagByte (a.getLsbD 7)

/-- Some target cell goes from set to unset (43_display.md R121). -/
def State.collides (s : State) (x0 y0 n : Nat) : Bool :=
  (List.finRange 32).any fun row => s.fb[row.val] &&& s.spriteMask x0 y0 n row.val != 0#64

/-- The collision flag of a draw (43_display.md R121). -/
def State.collisionFlag (s : State) (x0 y0 n : Nat) : Byte := flagByte (s.collides x0 y0 n)

end Sys2Proof.Machine
end

