-- ==== Sys2Proof/Machine/Alu.lean ====
section
/-! DEFINITION. Register load, arithmetic, logic, shifts, random (spec 41_alu.md). All operands are read from the state
the step began in; of two writes to one register the later stands (30_encoding.md R71). -/

namespace Sys2Proof.Machine

/-- `V[x] <- b`, no flag, `PC <- npc`. -/
def State.loadV (s : State) (x : Nibble) (b : Byte) : State := (s.setV x b).advance

/-- `V[x] <- b; VF <- flag`, `PC <- npc`: the flag stands when `x = 0xF` (30_encoding.md R71). -/
def State.loadVThenFlag (s : State) (x : Nibble) (b flag : Byte) : State := ((s.setV x b).setV vf flag).advance

/-- `VF <- flag; V[x] <- b`, `PC <- npc`: the result stands when `x = 0xF` (30_encoding.md R71). -/
def State.flagThenLoadV (s : State) (x : Nibble) (b flag : Byte) : State := ((s.setV vf flag).setV x b).advance

/-- LD Vx, nn (41_alu.md R90). -/
def execLdVxNn (x : Nibble) (nn : Byte) (s : State) : Host.Outcome State Fault Refusal := .next (s.loadV x nn)

/-- ADD Vx, nn (41_alu.md R91): wrap, no flag. -/
def execAddVxNn (x : Nibble) (nn : Byte) (s : State) : Host.Outcome State Fault Refusal :=
  .next (s.loadV x (s.getV x + nn))

/-- LD Vx, Vy (41_alu.md R92). -/
def execLdVxVy (x y : Nibble) (s : State) : Host.Outcome State Fault Refusal := .next (s.loadV x (s.getV y))

/-- OR Vx, Vy (41_alu.md R93). -/
def execOrVxVy (x y : Nibble) (s : State) : Host.Outcome State Fault Refusal :=
  .next (s.loadV x (s.getV x ||| s.getV y))

/-- AND Vx, Vy (41_alu.md R94). -/
def execAndVxVy (x y : Nibble) (s : State) : Host.Outcome State Fault Refusal :=
  .next (s.loadV x (s.getV x &&& s.getV y))

/-- XOR Vx, Vy (41_alu.md R95). -/
def execXorVxVy (x y : Nibble) (s : State) : Host.Outcome State Fault Refusal :=
  .next (s.loadV x (s.getV x ^^^ s.getV y))

/-- ADD Vx, Vy (41_alu.md R96). -/
def execAddVxVy (x y : Nibble) (s : State) : Host.Outcome State Fault Refusal :=
  .next (s.loadVThenFlag x (s.getV x + s.getV y) (carryFlag (s.getV x) (s.getV y)))

/-- SUB Vx, Vy (41_alu.md R97). -/
def execSubVxVy (x y : Nibble) (s : State) : Host.Outcome State Fault Refusal :=
  .next (s.loadVThenFlag x (s.getV x - s.getV y) (noBorrowFlag (s.getV x) (s.getV y)))

/-- SHR Vx (41_alu.md R98): the flag is written first; `y` plays no part (30_encoding.md R67). -/
def execShrVx (x _y : Nibble) (s : State) : Host.Outcome State Fault Refusal :=
  .next (s.flagThenLoadV x (s.getV x >>> 1) (lowBitFlag (s.getV x)))

/-- SUBN Vx, Vy (41_alu.md R99). -/
def execSubnVxVy (x y : Nibble) (s : State) : Host.Outcome State Fault Refusal :=
  .next (s.loadVThenFlag x (s.getV y - s.getV x) (noBorrowFlag (s.getV y) (s.getV x)))

/-- SHL Vx (41_alu.md R100): the flag is written first; `y` plays no part (30_encoding.md R67). -/
def execShlVx (x _y : Nibble) (s : State) : Host.Outcome State Fault Refusal :=
  .next (s.flagThenLoadV x (s.getV x <<< 1) (highBitFlag (s.getV x)))

/-- RND Vx, nn (41_alu.md R101): a free byte under the mask. -/
def execRndVxNn (x : Nibble) (nn : Byte) (s : State) : Host.Outcome State Fault Refusal :=
  .next (s.takeRnd.loadV x (s.rnd &&& nn))

end Sys2Proof.Machine
end

