-- ==== Sys2Proof/Machine/Control.lean ====
section
/-! DEFINITION. Control transfer (spec 40_control.md). Every meaning runs on the state the step began in: `PC` holds the
instruction's own address and `npc` is `PC + 2`. -/

namespace Sys2Proof.Machine

/-- RET (40_control.md R80). -/
def execRet (s : State) : Host.Outcome State Fault Refusal :=
  if s.stackEmpty then raise .stackUnderflow .ret (zext8 s.sp) s
  else
    match s.pop with
    | some (w, t) => .next (t.setPc w)
    | none => .fault (.noStackEntry s.sp)

/-- JP nnn (40_control.md R81). -/
def execJpNnn (nnn : Addr12) (s : State) : Host.Outcome State Fault Refusal := .next (s.setPc (zext12 nnn))

/-- CALL nnn (40_control.md R82). -/
def execCallNnn (nnn : Addr12) (s : State) : Host.Outcome State Fault Refusal :=
  if s.stackFull then raise .stackOverflow (.callNnn nnn) (zext8 s.sp) s
  else
    match s.push s.npc with
    | some t => .next (t.setPc (zext12 nnn))
    | none => .fault (.noStackEntry s.sp)

/-- SE Vx, nn (40_control.md R83). -/
def execSeVxNn (x : Nibble) (nn : Byte) (s : State) : Host.Outcome State Fault Refusal :=
  .next (s.skipIf (s.getV x == nn))

/-- SNE Vx, nn (40_control.md R84). -/
def execSneVxNn (x : Nibble) (nn : Byte) (s : State) : Host.Outcome State Fault Refusal :=
  .next (s.skipIf (s.getV x != nn))

/-- SE Vx, Vy (40_control.md R85). -/
def execSeVxVy (x y : Nibble) (s : State) : Host.Outcome State Fault Refusal :=
  .next (s.skipIf (s.getV x == s.getV y))

/-- SNE Vx, Vy (40_control.md R86). -/
def execSneVxVy (x y : Nibble) (s : State) : Host.Outcome State Fault Refusal :=
  .next (s.skipIf (s.getV x != s.getV y))

/-- JP V0, nnn (40_control.md R87): the sum fits 16 bits and is not reduced modulo 4096. -/
def execJpV0Nnn (nnn : Addr12) (s : State) : Host.Outcome State Fault Refusal :=
  .next (s.setPc (zext12 nnn + zext8 (s.getV 0#4)))

end Sys2Proof.Machine
end

