-- ==== Sys2Proof/Machine/Display.lean ====
section
/-! DEFINITION. The display instructions (spec 43_display.md). -/

namespace Sys2Proof.Machine

/-- CLS (43_display.md R120). -/
def execCls (s : State) : Host.Outcome State Fault Refusal :=
  .next (s.setFb (Vector.replicate 32 0#64)).advance

/-- DRW Vx, Vy, n (43_display.md R121): all `n` sprite bytes are range-checked, clipped rows included; the coordinates
are read before `VF` is written. -/
def execDrwVxVyN (x y n : Nibble) (s : State) : Host.Outcome State Fault Refusal :=
  guardData (.drwVxVyN x y n) n.toNat s
    ((s.setFb (s.xorSprite (s.getV x).toNat (s.getV y).toNat n.toNat)).setV vf
      (s.collisionFlag (s.getV x).toNat (s.getV y).toNat n.toNat)).advance

end Sys2Proof.Machine
end

