-- ==== Sys2Proof/Machine/IndexMemory.lean ====
section
/-! DEFINITION. The index register and memory transfer (spec 42_index_memory.md). No access changes `I`. -/

namespace Sys2Proof.Machine

/-- LD I, nnn (42_index_memory.md R110). -/
def execLdINnn (nnn : Addr12) (s : State) : Host.Outcome State Fault Refusal :=
  .next (s.setI (zext12 nnn)).advance

/-- ADD I, Vx (42_index_memory.md R111): modulo 65536, no flag. -/
def execAddIVx (x : Nibble) (s : State) : Host.Outcome State Fault Refusal :=
  .next (s.setI (s.i + zext8 (s.getV x))).advance

/-- LD F, Vx (42_index_memory.md R112): the whole byte is used. -/
def execLdFVx (x : Nibble) (s : State) : Host.Outcome State Fault Refusal :=
  .next (s.setI (BitVec.ofNat 16 Config.fontBase + 5#16 * zext8 (s.getV x))).advance

/-- LD B, Vx (42_index_memory.md R113). -/
def execLdBVx (x : Nibble) (s : State) : Host.Outcome State Fault Refusal :=
  guardData (.ldBVx x) 3 s (s.setMem (s.mem.writeBytes (s.dataAddr 0) (bcdDigits (s.getV x)))).advance

/-- LD [I], Vx (42_index_memory.md R114). -/
def execLdMemVx (x : Nibble) (s : State) : Host.Outcome State Fault Refusal :=
  guardData (.ldMemVx x) (x.toNat + 1) s (s.setMem (s.mem.writeBytes (s.dataAddr 0) (s.regsUpTo x))).advance

/-- LD Vx, [I] (42_index_memory.md R115). -/
def execLdVxMem (x : Nibble) (s : State) : Host.Outcome State Fault Refusal :=
  guardData (.ldVxMem x) (x.toNat + 1) s (s.loadRegs x).advance

end Sys2Proof.Machine
end

