-- ==== Sys2Proof/Machine/KeypadTimers.lean ====
section
/-! DEFINITION. The keypad and timer instructions (spec 44_keypad_timers.md). -/

namespace Sys2Proof.Machine

/-- The key code in a register selects a cell of `K`, or the instruction raises `KeyIndexOutOfRange`
(44_keypad_timers.md R130, R131; 60_exceptions.md R146): skip when the cell holds `wanted`. -/
def skipOnKey (i : Instr) (x : Nibble) (wanted : Bool) (s : State) : Host.Outcome State Fault Refusal :=
  if (s.getV x).toNat > 15 then raise .keyIndexOutOfRange i (zext8 (s.getV x)) s
  else .next (s.skipIf (s.keyDown ((s.getV x).setWidth 4) == wanted))

/-- SKP Vx (44_keypad_timers.md R130). -/
def execSkpVx (x : Nibble) (s : State) : Host.Outcome State Fault Refusal := skipOnKey (.skpVx x) x true s

/-- SKNP Vx (44_keypad_timers.md R131). -/
def execSknpVx (x : Nibble) (s : State) : Host.Outcome State Fault Refusal := skipOnKey (.sknpVx x) x false s

/-- LD Vx, DT (44_keypad_timers.md R132). -/
def execLdVxDt (x : Nibble) (s : State) : Host.Outcome State Fault Refusal := .next (s.setV x s.dt).advance

/-- LD Vx, K (44_keypad_timers.md R133): with no key down the state, `PC` included, stays as it is. -/
def execLdVxK (x : Nibble) (s : State) : Host.Outcome State Fault Refusal :=
  match s.firstKey with
  | some k => .next (s.setV x (BitVec.ofNat 8 k.val)).advance
  | none => .next (s.setPc (s.npc - 2#16))

/-- LD DT, Vx (44_keypad_timers.md R134). -/
def execLdDtVx (x : Nibble) (s : State) : Host.Outcome State Fault Refusal := .next (s.setDt (s.getV x)).advance

/-- LD ST, Vx (44_keypad_timers.md R135). -/
def execLdStVx (x : Nibble) (s : State) : Host.Outcome State Fault Refusal := .next (s.setSt (s.getV x)).advance

end Sys2Proof.Machine
end

