-- ==== Sys2Proof/Machine/Step.lean ====
section
/-! DEFINITION. One step of the machine (spec 30_encoding.md R70). -/

namespace Sys2Proof.Machine

/-- `Step` (30_encoding.md R70): a halted machine does nothing (60_exceptions.md R154); else fetch, decode, execute, the
first fault in that order taken (R151). Its `rnd` is `State.rnd` (log 2). -/
def step (s : State) : Host.Outcome State Fault Refusal :=
  match s.status with
  | .halted => .next s
  | .running =>
    match s.fetch with
    | .error a => .next (s.fetchFault a)
    | .ok w =>
      match decodeWord w with
      | .error _ => .next (s.decodeFault w)
      | .ok i => exec i s

/-- The state with the instruction whose table bits are `w` where the next step fetches (log 6). -/
def State.withFetchWord (s : State) (nbits w : Nat) : State := s.placeWord (tableWord nbits w)

end Sys2Proof.Machine
end

