-- ==== Sys2Proof/Machine/Boundary.lean ====
section
/-! DEFINITION. The seven boundary operations (spec 10_state.md R26), sequences of them, and several requested in one
cycle (70_reset_and_hazards.md R181). -/

namespace Sys2Proof.Machine

/-- `Step(rnd)` with its input byte given (30_encoding.md R70, 10_state.md R22). -/
def stepWith (rnd : Byte) (s : State) : Host.Outcome State Fault Refusal :=
  match step (s.setRndIn (rnd :: s.rndIn)) with
  | .next t => .next (t.setRndIn s.rndIn)
  | .fault f => .fault f
  | .refused r => .refused r

/-- A timer counts down and stays at zero (60_exceptions.md R156). -/
def countDown (b : Byte) : Byte := if b = 0x00#8 then b else b - 1#8

/-- `Tick` (60_exceptions.md R156); nothing when HALTED (R154). -/
def tick (s : State) : State :=
  match s.status with
  | .halted => s
  | .running => (s.setDt (countDown s.dt)).setSt (countDown s.st)

/-- `KeyWrite(k, v)`, in any status (60_exceptions.md R159). -/
def keyWrite (k : Nibble) (v : Bool) (s : State) : State := s.setK (s.k.set k.toNat v k.isLt)

/-- `Reset(image)` (70_reset_and_hazards.md R170), whatever the state before (R174); an image longer than 3584 bytes has
no result (R171). -/
def resetImage (image : List Byte) : Host.Outcome State Fault Refusal :=
  if imageWellFormed image then
    .next (State.reset.setMem (State.reset.mem.writeBytes Config.progBase image))
  else .refused (.imageTooLong image.length)

/-- `FbRead(i)`: display cell `i`, row `i / 64`, column `i mod 64` (20_memory.md R52, R53). -/
def fbRead (i : Fin 2048) (s : State) : Bool := (s.fb[i.val / 64]'(by omega)).getLsbD (i.val % 64)

/-- `SoundRead` (60_exceptions.md R158). -/
def soundRead (s : State) : Byte := s.st

/-- `sound_active = (ST != 0)`, not gated by `STATUS` (60_exceptions.md R158; 92_eei_decisions.md D26). -/
def soundActive (s : State) : Bool := s.st != 0x00#8

/-- `StatusRead` (60_exceptions.md R154). -/
def statusRead (s : State) : Status × FaultRecord := (s.status, s.fault)

/-- The boundary operations (10_state.md R26). -/
inductive Operation where
  | reset (image : List Byte)
  | step (rnd : Byte)
  | tick
  | keyWrite (k : Nibble) (v : Bool)
  | fbRead (i : Fin 2048)
  | soundRead
  | statusRead
  deriving DecidableEq, Repr

/-- What an operation hands back (10_state.md R26): only the three reads return anything. -/
inductive Reply where
  | nothing
  | cell (lit : Bool)
  | sound (st : Byte) (active : Bool)
  | status (status : Status) (fault : FaultRecord)
  deriving DecidableEq, Repr

/-- What an operation does to the state; a read does nothing (10_state.md R26). -/
def operate (op : Operation) (s : State) : Host.Outcome State Fault Refusal :=
  match op with
  | .reset image => resetImage image
  | .step rnd => stepWith rnd s
  | .tick => .next (tick s)
  | .keyWrite k v => .next (keyWrite k v s)
  | .fbRead _ => .next s
  | .soundRead => .next s
  | .statusRead => .next s

/-- What an operation returns, from the state it is issued in (10_state.md R26). -/
def reply (op : Operation) (s : State) : Reply :=
  match op with
  | .reset _ => .nothing
  | .step _ => .nothing
  | .tick => .nothing
  | .keyWrite _ _ => .nothing
  | .fbRead i => .cell (fbRead i s)
  | .soundRead => .sound (soundRead s) (soundActive s)
  | .statusRead => .status (statusRead s).1 (statusRead s).2

/-- A schedule: operations one after another, each complete before the next begins (00_scope.md R4, 20_memory.md R49). -/
def runOperations : List Operation → State → Host.Outcome State Fault Refusal
  | [], s => .next s
  | op :: ops, s =>
    match operate op s with
    | .next t => runOperations ops t
    | .fault f => .fault f
    | .refused r => .refused r

/-- What a pin-level wrapper may see requested in one cycle (70_reset_and_hazards.md R181): at most one of each boundary
operation of 10_state.md R26. -/
structure Requests where
  reset      : Option (List Byte)
  keyWrite   : Option (Nibble × Bool)
  step       : Option Byte
  tick       : Bool
  fbRead     : Option (Fin 2048)
  soundRead  : Bool
  statusRead : Bool
  deriving DecidableEq, Repr

/-- The requests that write, in the order they act (70_reset_and_hazards.md R181): `Reset` first, cancelling `Step` and
`Tick`; then `KeyWrite`, `Step`, `Tick`. Log 14. -/
def Requests.order (r : Requests) : List Operation :=
  let key := match r.keyWrite with
    | some (k, v) => [Operation.keyWrite k v]
    | none => []
  match r.reset with
  | some image => Operation.reset image :: key
  | none =>
    key ++ (match r.step with | some rnd => [Operation.step rnd] | none => [])
      ++ (if r.tick then [Operation.tick] else [])

/-- What the reads of one cycle hand back, each where it was requested. -/
structure CycleReplies where
  fb     : Option Reply
  sound  : Option Reply
  status : Option Reply
  deriving DecidableEq, Repr

/-- "reads return the state before the cycle's writes" (70_reset_and_hazards.md R181): `s` is the state the cycle begins in. -/
def Requests.replies (r : Requests) (s : State) : CycleReplies where
  fb     := r.fbRead.map fun i => reply (.fbRead i) s
  sound  := if r.soundRead then some (reply .soundRead s) else none
  status := if r.statusRead then some (reply .statusRead s) else none

/-- One cycle of a pin-level wrapper (70_reset_and_hazards.md R181): what its writes do, and what its reads return. -/
def cycle (r : Requests) (s : State) : Host.Outcome State Fault Refusal × CycleReplies :=
  (runOperations r.order s, r.replies s)

end Sys2Proof.Machine
end

