-- ==== Sys2Proof/Safety.lean ====
section
/-! DEFINITION. The words claims are made in: the parts of the state and frames over them, the faults an instruction can
raise, the sprite pixels a draw sets, legal and reachable states, safe runs. -/

namespace Sys2Proof.Machine

/-! ## Frames -/

/-- The parts of the state (spec 10_state.md R10), the model's own draw bookkeeping last. -/
inductive Part where
  | regs | i | pc | sp | stack | dt | st | k | fb | mem | status | fault | rnd
  deriving DecidableEq, Repr

/-- The part reads the same in both states; memory through the read of each byte, the display through each cell. -/
def Part.same : Part → State → State → Prop
  | .regs, s, t   => ∀ r, t.getV r = s.getV r
  | .i, s, t      => t.i = s.i
  | .pc, s, t     => t.pc = s.pc
  | .sp, s, t     => t.sp = s.sp
  | .stack, s, t  => ∀ j : Fin 16, t.stack[j] = s.stack[j]
  | .dt, s, t     => t.dt = s.dt
  | .st, s, t     => t.st = s.st
  | .k, s, t      => ∀ c, t.keyDown c = s.keyDown c
  | .fb, s, t     => ∀ row col, t.cell row col = s.cell row col
  | .mem, s, t    => ∀ a, t.mem.read a = s.mem.read a
  | .status, s, t => t.status = s.status
  | .fault, s, t  => t.fault = s.fault
  | .rnd, s, t    => t.rndIn = s.rndIn ∧ t.rndCount = s.rndCount

/-- Every part but the named ones reads the same. -/
def OnlyChanges (parts : List Part) (s t : State) : Prop := ∀ p, p ∉ parts → p.same s t

/-- Every register but the named ones keeps its value. -/
def RegsKeptBut (rs : List Nibble) (s t : State) : Prop := ∀ r, r ∉ rs → t.getV r = s.getV r

/-- The parts an instruction that does not fault may change (the effect column of 30_encoding.md R65; 10_state.md R11 to
R20 name the writers of each). -/
def partsWritten : Instr → List Part
  | .cls => [.pc, .fb]
  | .ret => [.pc, .sp]
  | .jpNnn _ => [.pc]
  | .callNnn _ => [.pc, .sp, .stack]
  | .seVxNn _ _ => [.pc]
  | .sneVxNn _ _ => [.pc]
  | .seVxVy _ _ => [.pc]
  | .ldVxNn _ _ => [.pc, .regs]
  | .addVxNn _ _ => [.pc, .regs]
  | .ldVxVy _ _ => [.pc, .regs]
  | .orVxVy _ _ => [.pc, .regs]
  | .andVxVy _ _ => [.pc, .regs]
  | .xorVxVy _ _ => [.pc, .regs]
  | .addVxVy _ _ => [.pc, .regs]
  | .subVxVy _ _ => [.pc, .regs]
  | .shrVx _ _ => [.pc, .regs]
  | .subnVxVy _ _ => [.pc, .regs]
  | .shlVx _ _ => [.pc, .regs]
  | .sneVxVy _ _ => [.pc]
  | .ldINnn _ => [.pc, .i]
  | .jpV0Nnn _ => [.pc]
  | .rndVxNn _ _ => [.pc, .regs, .rnd]
  | .drwVxVyN _ _ _ => [.pc, .regs, .fb]
  | .skpVx _ => [.pc]
  | .sknpVx _ => [.pc]
  | .ldVxDt _ => [.pc, .regs]
  | .ldVxK _ => [.pc, .regs]
  | .ldDtVx _ => [.pc, .dt]
  | .ldStVx _ => [.pc, .st]
  | .addIVx _ => [.pc, .i]
  | .ldFVx _ => [.pc, .i]
  | .ldBVx _ => [.pc, .mem]
  | .ldMemVx _ => [.pc, .mem]
  | .ldVxMem _ => [.pc, .regs]

/-- The instruction writes `VF` as a side effect, whatever its `x` field: exactly six do (10_state.md R12). -/
def writesFlag : Instr → Bool
  | .addVxVy _ _ | .subVxVy _ _ | .shrVx _ _ | .subnVxVy _ _ | .shlVx _ _ | .drwVxVyN _ _ _ => true
  | _ => false

/-- The registers an instruction names as its destination: its `x`, or `V0..Vx` for LD Vx, [I] (30_encoding.md R65). -/
def isDestination : Instr → Nibble → Bool
  | .ldVxNn x _, r | .addVxNn x _, r | .ldVxVy x _, r | .orVxVy x _, r | .andVxVy x _, r | .xorVxVy x _, r
  | .addVxVy x _, r | .subVxVy x _, r | .shrVx x _, r | .subnVxVy x _, r | .shlVx x _, r | .rndVxNn x _, r
  | .ldVxDt x, r | .ldVxK x, r => r == x
  | .ldVxMem x, r => r.toNat ≤ x.toNat
  | _, _ => false

/-- The addresses an instruction stores to: the three bytes at `I` of LD B, Vx and the `x + 1` bytes at `I` of LD [I], Vx
(20_memory.md R40), each computed as the meaning computes it. -/
def storesTo (i : Instr) (s : State) (a : Nat) : Prop :=
  match i with
  | .ldBVx _ => ∃ k, k < 3 ∧ a = s.dataAddr k
  | .ldMemVx x => ∃ k, k ≤ x.toNat ∧ a = s.dataAddr k
  | _ => False

/-! ## Faults -/

/-- The fault an instruction raises in a state, its cause and its `info` (the "raised by" and `info` columns of
60_exceptions.md R140; R143 to R147). -/
def faultOf (i : Instr) (s : State) : Option (FaultCause × Word) :=
  let data (count : Nat) : Option (FaultCause × Word) :=
    if count ≠ 0 ∧ s.i.toNat + count - 1 > 0xFFF then
      some (.dataOutOfRange, if s.i.toNat < 0x1000 then 0x1000#16 else s.i)
    else none
  let key (x : Nibble) : Option (FaultCause × Word) :=
    if (s.getV x).toNat > 15 then some (.keyIndexOutOfRange, BitVec.ofNat 16 (s.getV x).toNat) else none
  match i with
  | .ret => if s.sp = 0x0F#8 then some (.stackUnderflow, 0x000F#16) else none
  | .callNnn _ => if s.sp = 0xFF#8 then some (.stackOverflow, 0x00FF#16) else none
  | .drwVxVyN _ _ n => data n.toNat
  | .ldBVx _ => data 3
  | .ldMemVx x => data (x.toNat + 1)
  | .ldVxMem x => data (x.toNat + 1)
  | .skpVx x => key x
  | .sknpVx x => key x
  | _ => none

/-- `t` is `s` halted with this fault and nothing else changed (60_exceptions.md R152). -/
def HaltedWith (cause : FaultCause) (opcode info : Word) (s t : State) : Prop :=
  t.status = .halted ∧ t.fault = ⟨cause, opcode, s.pc, info⟩ ∧ OnlyChanges [.status, .fault] s t

/-! ## Sprites -/

/-- Some set pixel `(r, c)` of the `n`-row sprite at `I` has the display cell `(row, col)` as its target when the sprite
is drawn at column `x0`, row `y0` (43_display.md R122). -/
def SpriteLit (s : State) (x0 y0 n row col : Nat) : Prop :=
  ∃ r c, r < n ∧ c < 8 ∧ row = y0 + r ∧ col = x0 + c ∧ (s.mem.read (s.dataAddr r)).getLsbD (7 - c) = true

/-! ## Legal and reachable states, safe runs -/

/-- The values `SP` can take (10_state.md R24 (b)). -/
abbrev SpLegal (sp : Byte) : Prop := sp.toNat ≤ 15 ∨ sp = 0xFF#8

/-- The entries of `STACK` that hold return addresses: those above `SP`, all of them when `SP = 0xFF` (10_state.md R15, R16). -/
abbrev EntryHeld (sp : Byte) (j : Fin 16) : Prop := sp = 0xFF#8 ∨ sp.toNat < j.val

/-- What holds of every state the operations reach from `Reset` (10_state.md R21, R24; 60_exceptions.md R152): memory is in
its canonical form, `PC` and `SP` are in their ranges, every held stack entry is an `npc`, and `STATUS` and `FAULT` agree. -/
abbrev Legal (s : State) : Prop :=
  s.mem.wf ∧ s.pc.toNat ≤ 0x10FE ∧ SpLegal s.sp ∧
  (∀ j : Fin 16, EntryHeld s.sp j → 0x0002 ≤ s.stack[j].toNat ∧ s.stack[j].toNat ≤ 0x1000) ∧
  (s.status = .running → s.fault = FaultRecord.clear) ∧
  (s.status = .halted → s.fault.cause ≠ .none ∧ s.fault.pc = s.pc)

/-- The states the operations reach from `Reset` (10_state.md R24, 70_reset_and_hazards.md R172). -/
inductive Reachable : State → Prop where
  | reset (image : List Byte) (t : State) : resetImage image = .next t → Reachable t
  | operate (op : Operation) (s t : State) : Reachable s → operate op s = .next t → Reachable t

/-- The next step fetches a `1nnn` that jumps to itself, the suggested sign of a finished program
(70_reset_and_hazards.md R185; 92_eei_decisions.md D24). -/
def State.atSelfJump (s : State) : Bool :=
  match s.fetch with
  | .ok w => decide (decodeWord w = .ok (.jpNnn (s.pc.setWidth 12)))
  | .error _ => false

/-- A schedule runs safely: after each of its operations the machine is still RUNNING (60_exceptions.md R154). -/
def SafeRun (ops : List Operation) (s : State) : Prop :=
  ∀ n, ∃ t, runOperations (ops.take n) s = .next t ∧ t.status = .running

end Sys2Proof.Machine
end

