-- ==== Sys2Proof/Certificates/Slice0/Obligations.lean ====
section
/-! DEFINITION. The statements. A docstring names the rules of spec/ a statement formalises; where a clause rests on a
decision the spec marks as its own (D1 to D26 of 92_eei_decisions.md) or on a log entry, it says so. -/

open Sys2Proof Sys2Proof.Machine

/-! ## Encoding -/

/-- One word of each family, written out from the patterns of 30_encoding.md R65. -/
def Obligations.DecodeReadsSpecWords : Prop :=
  decodeWord 0b0000_0000_1110_0000#16 = .ok .cls ∧
  decodeWord 0b0010_0010_0001_0000#16 = .ok (.callNnn 0x210#12) ∧
  decodeWord 0b1000_0001_0010_0110#16 = .ok (.shrVx 0x1#4 0x2#4) ∧
  decodeWord 0b1010_0011_0000_0000#16 = .ok (.ldINnn 0x300#12) ∧
  decodeWord 0b1101_0000_0001_0010#16 = .ok (.drwVxVyN 0x0#4 0x1#4 0x2#4) ∧
  decodeWord 0b1110_0101_1001_1110#16 = .ok (.skpVx 0x5#4) ∧
  decodeWord 0b1111_0010_0110_0101#16 = .ok (.ldVxMem 0x2#4) ∧
  decodeWord 0b0101_0000_0000_0001#16 = .error (.unrecognized 0x5001#16)

/-- R60, R61, R65: decoding the two bytes of an instruction gives it back, with every operand, and leaves the bytes
after it. -/
def Obligations.DecodeInvertsEncode : Prop :=
  ∀ (i : Instr) (rest : List Byte), decode (encodeBytes i ++ rest) = .ok (i, rest)

/-- R64, R65, R67: no bit of a word is dropped, the don't-care field of SHR and SHL included: a word that decodes is
the encoding of what it decodes to. -/
def Obligations.EncodeInvertsDecode : Prop :=
  ∀ (w : Word) (i : Instr), decodeWord w = .ok i → encode i = w

/-- R65, R61, R62: a word is an instruction exactly when a row of the opcode map selects it; then the instruction's own row
does, and no other, and the word is its literal nibbles and its operands in the places the formats give them, for every
constructor. -/
def Obligations.DecodeAcceptsExactlyTheOpcodeMap : Prop :=
  ∀ w : Word, ((∃ i, decodeWord w = .ok i) ↔ wordWellFormed w = true) ∧
    (∀ i, decodeWord w = .ok i → i.row.selects w = true ∧ ∀ r ∈ opcodeMap, r.selects w = true → r = i.row) ∧
    (∀ i, decodeWord w = .ok i ↔ w = i.layout)

/-- R66 (families 5 and 9 by the spec's decision D6): the words that are not instructions are exactly six sets. -/
def Obligations.UnrecognizedWordsAreSixSets : Prop :=
  ∀ w : Word, decodeWord w = .error (.unrecognized w) ↔
    (fieldOp w = 0x0#4 ∧ fieldNnn w ≠ 0x0E0#12 ∧ fieldNnn w ≠ 0x0EE#12) ∨
    (fieldOp w = 0x5#4 ∧ fieldN w ≠ 0x0#4) ∨
    (fieldOp w = 0x8#4 ∧ fieldN w ∈ [0x8#4, 0x9#4, 0xA#4, 0xB#4, 0xC#4, 0xD#4, 0xF#4]) ∨
    (fieldOp w = 0x9#4 ∧ fieldN w ≠ 0x0#4) ∨
    (fieldOp w = 0xE#4 ∧ fieldNn w ≠ 0x9E#8 ∧ fieldNn w ≠ 0xA1#8) ∨
    (fieldOp w = 0xF#4 ∧
      fieldNn w ∉ [0x07#8, 0x0A#8, 0x15#8, 0x18#8, 0x1E#8, 0x29#8, 0x33#8, 0x55#8, 0x65#8])

/-! ## Reset -/

/-- R25, R170 for the empty image: every field at reset. The values of the keys, the display, the stack entries and the
memory outside the font are the spec's decision D12; the font is the open parameter FONT (log 1). The last clause is about
the two fields of the model's own, which are no state of the core: their reset values are the model's choice (log 2). -/
def Obligations.ResetStateValues : Prop :=
  (∀ r, State.reset.getV r = 0x00#8) ∧ State.reset.i = 0x0000#16 ∧ State.reset.pc = 0x0200#16 ∧
  State.reset.sp = 0x0F#8 ∧ (∀ j : Fin 16, State.reset.stack[j] = 0x0000#16) ∧ State.reset.dt = 0x00#8 ∧
  State.reset.st = 0x00#8 ∧ (∀ c, State.reset.keyDown c = false) ∧ (∀ row col, State.reset.cell row col = false) ∧
  State.reset.status = .running ∧ State.reset.fault = ⟨.none, 0x0000#16, 0x0000#16, 0x0000#16⟩ ∧
  (∀ a, State.reset.mem.read a = if 0x100 ≤ a ∧ a ≤ 0x14F then fontByte (a - 0x100) else 0x00#8) ∧
  State.reset.rndIn = [] ∧ State.reset.rndCount = 0

/-- R170, R171 (a longer image is refused by the spec's decision D19; the zeros are D12): `Reset` puts the image at 0x200,
the font at 0x100 and zeros elsewhere, and leaves everything else as the reset state has it. -/
def Obligations.ResetPlacesImage : Prop :=
  ∀ image : List Byte,
    (image.length ≤ 3584 → ∃ t, resetImage image = .next t ∧ OnlyChanges [.mem] State.reset t ∧
      (∀ j (h : j < image.length), t.mem.read (0x200 + j) = image[j]) ∧
      (∀ j, j < 80 → t.mem.read (0x100 + j) = fontByte j) ∧
      (∀ a, a < 0x100 ∨ (0x150 ≤ a ∧ a < 0x200) ∨ 0x200 + image.length ≤ a → t.mem.read a = 0x00#8)) ∧
    (image.length > 3584 → resetImage image = .refused (.imageTooLong image.length))

/-! ## The step -/

/-- R70, R43: when the two bytes at `PC`, big-endian, decode to an instruction, a step of a running machine is `exec` of
that instruction on the state as it stands; `exec` itself moves `PC`, and nothing else is added. -/
def Obligations.StepRunsDecodedInstruction : Prop :=
  ∀ (s : State) (i : Instr), s.status = .running → s.pc.toNat ≤ 0xFFE →
    decodeWord (wordOfBytes (s.mem.read s.pc.toNat) (s.mem.read (s.pc.toNat + 1))) = .ok i → step s = exec i s

/-- The same for the state the host's interface builds: a word placed where the next step fetches is fetched and run. -/
def Obligations.StepRunsPlacedWord : Prop :=
  ∀ (s : State) (w : Nat) (i : Instr), decodeTableWord 16 w = some i →
    step (s.withFetchWord 16 w) = exec i (s.withFetchWord 16 w)

/-- R142, R140 row 2, R152 (the spec's decisions D1, D3): a fetch above 0xFFE halts, reports `max(PC, 0x1000)` and no
opcode, and changes nothing else. -/
def Obligations.FetchAboveMemoryHalts : Prop :=
  ∀ s : State, s.status = .running → s.pc.toNat > 0xFFE →
    ∃ t, step s = .next t ∧
      HaltedWith .fetchOutOfRange 0x0000#16 (if s.pc.toNat < 0x1000 then 0x1000#16 else s.pc) s t

/-- R141, R140 row 1, R152 (the spec's decision D1): a word that matches no row halts with the exact word and the address
it was fetched from. -/
def Obligations.UnrecognizedOpcodeHalts : Prop :=
  ∀ (s : State) (w : Word), s.status = .running → s.pc.toNat ≤ 0xFFE →
    w = wordOfBytes (s.mem.read s.pc.toNat) (s.mem.read (s.pc.toNat + 1)) → wordWellFormed w = false →
    ∃ t, step s = .next t ∧ HaltedWith .unrecognizedOpcode w 0x0000#16 s t

/-- R140, R143 to R147, R151, R152 (the spec's decisions D1 to D4, D7): the faults of execution. An instruction that the
table gives a fault in this state halts with it and changes nothing else; every other instruction completes. `SpLegal` shuts
out only states no run reaches (R24), where log 3 applies. -/
def Obligations.ExecutionFaultsAreExactlyTheTable : Prop :=
  ∀ (i : Instr) (s : State), s.status = .running → SpLegal s.sp →
    (∀ cause info, faultOf i s = some (cause, info) →
      ∃ t, exec i s = .next t ∧ HaltedWith cause (encode i) info s t) ∧
    (faultOf i s = none → ∃ t, exec i s = .next t ∧ t.status = .running ∧ t.fault = s.fault)

/-- R152, R21 (the spec's decision D1), over a whole step: when a running machine halts, nothing but `STATUS` and `FAULT`
changed, the record names a cause, the address `PC` had, and the word at that address unless none was fetched. -/
def Obligations.HaltingStepChangesNothingElse : Prop :=
  ∀ s t : State, s.status = .running → step s = .next t → t.status = .halted →
    OnlyChanges [.status, .fault] s t ∧ t.fault.cause ≠ .none ∧ t.fault.pc = s.pc ∧
    (t.fault.cause = .fetchOutOfRange → t.fault.opcode = 0x0000#16) ∧
    (t.fault.cause ≠ .fetchOutOfRange →
      t.fault.opcode = wordOfBytes (s.mem.read s.pc.toNat) (s.mem.read (s.pc.toNat + 1)))

/-- R154 (the spec's decision D16): a halted machine ignores `Step` and `Tick`, still takes `KeyWrite` and answers
`StatusRead`, and `Reset` brings it back to RUNNING with `FAULT` clear. -/
def Obligations.HaltedMachineStandsStill : Prop :=
  ∀ s : State, s.status = .halted →
    step s = .next s ∧ (∀ rnd, stepWith rnd s = .next s) ∧ tick s = s ∧
    (∀ k v, (keyWrite k v s).keyDown k = v ∧ (keyWrite k v s).status = .halted) ∧
    reply .statusRead s = .status .halted s.fault ∧
    (∀ image : List Byte, image.length ≤ 3584 →
      ∃ t, operate (.reset image) s = .next t ∧ t.status = .running ∧ t.fault = FaultRecord.clear)

/-- R153 (the spec's decision D16): no operation other than `Reset` clears `STATUS` or `FAULT`, over any schedule. -/
def Obligations.OnlyResetLeavesHalted : Prop :=
  ∀ (ops : List Operation) (s : State), s.status = .halted → (∀ image, .reset image ∉ ops) →
    ∃ t, runOperations ops s = .next t ∧ t.status = .halted ∧ t.fault = s.fault

/-- R147, R150: a timer reaching zero, a key change, the reads and `Tick` raise nothing: a schedule without `Step` runs
safely from a running machine. -/
def Obligations.OnlyStepsCanHalt : Prop :=
  ∀ (ops : List Operation) (s : State), s.status = .running →
    (∀ op ∈ ops, (∀ rnd, op ≠ .step rnd) ∧ ∀ image, op = .reset image → image.length ≤ 3584) → SafeRun ops s

/-- R22, R70, R160: the input `rnd` of a step is used by `Cxnn` alone: from one state, two steps with different bytes
agree unless the instruction fetched is a `Cxnn`. -/
def Obligations.RandomInputReachesOnlyRnd : Prop :=
  ∀ (s : State) (b b' : Byte),
    (∀ w x nn, s.fetch = .ok w → decodeWord w ≠ .ok (.rndVxNn x nn)) → stepWith b s = stepWith b' s

/-! ## Frames over all instructions -/

/-- The frame of every instruction (R11 to R20, R40, R46 name the writers of each part): one that completes changes only
the parts its effect names, keeps `STATUS` and `FAULT`, and keeps every byte of memory outside the bytes it stores to. -/
def Obligations.InstructionsChangeOnlyTheirParts : Prop :=
  ∀ (i : Instr) (s t : State), exec i s = .next t → t.status = .running →
    OnlyChanges (partsWritten i) s t ∧ (∀ a, ¬ storesTo i s a → t.mem.read a = s.mem.read a)

/-- R11, R12: an instruction that completes changes no register but its destination and, for the six flag-writing
instructions, `VF`. -/
def Obligations.RegistersChangeOnlyAsDestination : Prop :=
  ∀ (i : Instr) (s t : State) (r : Nibble), exec i s = .next t →
    isDestination i r = false → (r = vf → writesFlag i = false) → t.getV r = s.getV r

/-! ## Control transfer -/

/-- R81: `PC <- zext_16(nnn)` and nothing else. -/
def Obligations.JumpSetsPc : Prop :=
  ∀ (nnn : Addr12) (s : State), ∃ t, exec (.jpNnn nnn) s = .next t ∧
    t.pc.toNat = nnn.toNat ∧ OnlyChanges [.pc] s t

/-- R87 (that the sum is not reduced is the spec's decision D3): `PC <- nnn + V0`, at most 0x10FE. -/
def Obligations.IndexedJumpAddsV0 : Prop :=
  ∀ (nnn : Addr12) (s : State), ∃ t, exec (.jpV0Nnn nnn) s = .next t ∧
    t.pc.toNat = nnn.toNat + (s.getV 0x0#4).toNat ∧ t.pc.toNat ≤ 0x10FE ∧ OnlyChanges [.pc] s t

/-- R82, R16 (the order of store and decrement is the spec's decision D5): with room on the stack, CALL stores the address
after it at `STACK[SP]`, decrements `SP` modulo 256 and jumps; every other entry is kept. -/
def Obligations.CallPushesReturnAddress : Prop :=
  ∀ (nnn : Addr12) (s : State) (h : s.sp.toNat ≤ 15), ∃ t, exec (.callNnn nnn) s = .next t ∧
    t.pc.toNat = nnn.toNat ∧ t.stack[s.sp.toNat] = s.pc + 2#16 ∧
    (∀ j : Fin 16, j.val ≠ s.sp.toNat → t.stack[j] = s.stack[j]) ∧
    t.sp.toNat = (if s.sp.toNat = 0 then 0xFF else s.sp.toNat - 1) ∧ OnlyChanges [.pc, .sp, .stack] s t

/-- R80, R16 (D5): with a return address held, RET increments `SP` modulo 256 and goes to the entry it then selects; the
entry stays. -/
def Obligations.ReturnPopsReturnAddress : Prop :=
  ∀ (s : State) (j : Fin 16), SpLegal s.sp → s.sp ≠ 0x0F#8 →
    j.val = (s.sp.toNat + 1) % 256 → ∃ t, exec .ret s = .next t ∧
      t.pc = s.stack[j] ∧ t.sp.toNat = j.val ∧ OnlyChanges [.pc, .sp] s t

/-- The model's choice of log 3, not the spec's (10_state.md R16, R24 say no run reaches such a state): with an `SP` that
indexes no entry of `STACK`, CALL and RET stop by name. -/
def Obligations.NoStackEntryStops : Prop :=
  ∀ (nnn : Addr12) (s : State), ¬ SpLegal s.sp →
    exec (.callNnn nnn) s = .fault (.noStackEntry s.sp) ∧ exec .ret s = .fault (.noStackEntry s.sp)

/-- The document's stack round trip (R80, R82; 95_test_vectors.md S5): a CALL at any fetchable address, made with room on
the stack, to a RET comes back to the address after it with `SP` as it was. -/
def Obligations.CallThenReturnComesBack : Prop :=
  ∀ (s : State) (nnn : Addr12), s.status = .running → s.pc.toNat ≤ 0xFFE → s.sp.toNat ≤ 15 → nnn.toNat ≤ 0xFFE →
    decodeWord (wordOfBytes (s.mem.read s.pc.toNat) (s.mem.read (s.pc.toNat + 1))) = .ok (.callNnn nnn) →
    wordOfBytes (s.mem.read nnn.toNat) (s.mem.read (nnn.toNat + 1)) = 0x00EE#16 →
    ∃ t u, step s = .next t ∧ step t = .next u ∧ u.pc.toNat = s.pc.toNat + 2 ∧ OnlyChanges [.pc, .stack] s u

/-- R83, R84: SE and SNE with a constant, their encodings: they skip on equality and on difference, exactly one of them. -/
def Obligations.ConstantSkips : Prop :=
  ∀ (x : Nibble) (nn : Byte) (s : State), ∃ t u,
    exec (.seVxNn x nn) s = .next t ∧ exec (.sneVxNn x nn) s = .next u ∧
    (s.getV x = nn → t.pc = s.pc + 4#16 ∧ u.pc = s.pc + 2#16) ∧
    (s.getV x ≠ nn → t.pc = s.pc + 2#16 ∧ u.pc = s.pc + 4#16) ∧
    OnlyChanges [.pc] s t ∧ OnlyChanges [.pc] s u ∧
    encode (.seVxNn x nn) = 0x3#4 ++ x ++ nn ∧ encode (.sneVxNn x nn) = 0x4#4 ++ x ++ nn

/-- R85, R86: SE and SNE with two registers; with `x = y` SE always skips and SNE never does. -/
def Obligations.RegisterSkips : Prop :=
  ∀ (x y : Nibble) (s : State), ∃ t u,
    exec (.seVxVy x y) s = .next t ∧ exec (.sneVxVy x y) s = .next u ∧
    (s.getV x = s.getV y → t.pc = s.pc + 4#16 ∧ u.pc = s.pc + 2#16) ∧
    (s.getV x ≠ s.getV y → t.pc = s.pc + 2#16 ∧ u.pc = s.pc + 4#16) ∧
    OnlyChanges [.pc] s t ∧ OnlyChanges [.pc] s u

/-- R81, R185 (the convention is the spec's suggestion D24): at a jump to itself every step leaves the state unchanged. -/
def Obligations.SelfJumpStandsStill : Prop :=
  ∀ s : State, s.status = .running → s.atSelfJump = true → step s = .next s

/-! ## Arithmetic and logic -/

/-- R90, R91: load and add a constant, their encodings; no flag, any destination. -/
def Obligations.ConstantLoadAndAdd : Prop :=
  ∀ (x : Nibble) (nn : Byte) (s : State), ∃ t u,
    exec (.ldVxNn x nn) s = .next t ∧ exec (.addVxNn x nn) s = .next u ∧
    t.getV x = nn ∧ (u.getV x).toNat = ((s.getV x).toNat + nn.toNat) % 256 ∧
    t.pc = s.pc + 2#16 ∧ u.pc = s.pc + 2#16 ∧
    RegsKeptBut [x] s t ∧ RegsKeptBut [x] s u ∧ OnlyChanges [.pc, .regs] s t ∧ OnlyChanges [.pc, .regs] s u ∧
    encode (.ldVxNn x nn) = 0x6#4 ++ x ++ nn ∧ encode (.addVxNn x nn) = 0x7#4 ++ x ++ nn

/-- R92 to R95: copy, or, and, exclusive or, bit by bit, their encodings; no flag. -/
def Obligations.CopyAndLogic : Prop :=
  ∀ (x y : Nibble) (s : State), ∃ c o a e,
    exec (.ldVxVy x y) s = .next c ∧ exec (.orVxVy x y) s = .next o ∧
    exec (.andVxVy x y) s = .next a ∧ exec (.xorVxVy x y) s = .next e ∧
    c.getV x = s.getV y ∧
    (∀ b, (o.getV x).getLsbD b = ((s.getV x).getLsbD b || (s.getV y).getLsbD b)) ∧
    (∀ b, (a.getV x).getLsbD b = ((s.getV x).getLsbD b && (s.getV y).getLsbD b)) ∧
    (∀ b, (e.getV x).getLsbD b = ((s.getV x).getLsbD b ^^ (s.getV y).getLsbD b)) ∧
    (∀ t ∈ [c, o, a, e], t.pc = s.pc + 2#16 ∧ RegsKeptBut [x] s t ∧ OnlyChanges [.pc, .regs] s t) ∧
    encode (.ldVxVy x y) = 0x8#4 ++ x ++ y ++ 0x0#4 ∧ encode (.orVxVy x y) = 0x8#4 ++ x ++ y ++ 0x1#4 ∧
    encode (.andVxVy x y) = 0x8#4 ++ x ++ y ++ 0x2#4 ∧ encode (.xorVxVy x y) = 0x8#4 ++ x ++ y ++ 0x3#4

/-- R96, R89: the sum modulo 256 and the carry out. With `x = 0xF` the flag stands (R71, the spec's decision D9). -/
def Obligations.AddSetsCarry : Prop :=
  ∀ (x y : Nibble) (s : State), ∃ t, exec (.addVxVy x y) s = .next t ∧
    t.getV 0xF#4 = (if (s.getV x).toNat + (s.getV y).toNat > 255 then 0x01#8 else 0x00#8) ∧
    (x ≠ 0xF#4 → (t.getV x).toNat = ((s.getV x).toNat + (s.getV y).toNat) % 256) ∧
    t.pc = s.pc + 2#16 ∧ RegsKeptBut [x, 0xF#4] s t ∧ OnlyChanges [.pc, .regs] s t

/-- R97, R99, R89: the two subtractions modulo 256; the flag is 1 when no borrow occurred. With `x = 0xF` the flag stands
(R71, the spec's decision D9). -/
def Obligations.SubtractSetsNoBorrow : Prop :=
  ∀ (x y : Nibble) (s : State), ∃ t u,
    exec (.subVxVy x y) s = .next t ∧ exec (.subnVxVy x y) s = .next u ∧
    t.getV 0xF#4 = (if (s.getV x).toNat ≥ (s.getV y).toNat then 0x01#8 else 0x00#8) ∧
    u.getV 0xF#4 = (if (s.getV y).toNat ≥ (s.getV x).toNat then 0x01#8 else 0x00#8) ∧
    (x ≠ 0xF#4 → (t.getV x).toNat = ((s.getV x).toNat + 256 - (s.getV y).toNat) % 256 ∧
      (u.getV x).toNat = ((s.getV y).toNat + 256 - (s.getV x).toNat) % 256) ∧
    t.pc = s.pc + 2#16 ∧ u.pc = s.pc + 2#16 ∧ RegsKeptBut [x, 0xF#4] s t ∧ RegsKeptBut [x, 0xF#4] s u ∧
    OnlyChanges [.pc, .regs] s t ∧ OnlyChanges [.pc, .regs] s u

/-- R98, R100, R67, R88: the shifts of `Vx` by one place and the bit shifted out; `y` plays no part. With `x = 0xF` the
shifted value stands and the bit is lost (R71, the spec's decision D9). -/
def Obligations.ShiftsByOne : Prop :=
  ∀ (x y : Nibble) (s : State), ∃ t u,
    exec (.shrVx x y) s = .next t ∧ exec (.shlVx x y) s = .next u ∧
    (t.getV x).toNat = (s.getV x).toNat / 2 ∧ (u.getV x).toNat = 2 * (s.getV x).toNat % 256 ∧
    (x ≠ 0xF#4 → (t.getV 0xF#4).toNat = (s.getV x).toNat % 2 ∧ (u.getV 0xF#4).toNat = (s.getV x).toNat / 128) ∧
    t.pc = s.pc + 2#16 ∧ u.pc = s.pc + 2#16 ∧ RegsKeptBut [x, 0xF#4] s t ∧ RegsKeptBut [x, 0xF#4] s u ∧
    OnlyChanges [.pc, .regs] s t ∧ OnlyChanges [.pc, .regs] s u

/-- R101, R22 (the byte is free: the spec's decision D14, log 2): `Vx` becomes the step's byte under the mask, for every byte
the driver hands over and for the free byte when it hands over none. -/
def Obligations.RandomByteUnderMask : Prop :=
  ∀ (x : Nibble) (nn : Byte) (s : State), ∃ t, exec (.rndVxNn x nn) s = .next t ∧
    (∀ b rest, s.rndIn = b :: rest → t.getV x = b &&& nn) ∧ t.getV x = s.rnd &&& nn ∧
    t.pc = s.pc + 2#16 ∧ RegsKeptBut [x] s t ∧ OnlyChanges [.pc, .regs, .rnd] s t

/-- R70, R101 (D14), over a whole `Step(rnd)`: at a `Cxnn` the input byte, and no other, reaches `Vx`. -/
def Obligations.StepInputReachesVx : Prop :=
  ∀ (s : State) (rnd : Byte) (x : Nibble) (nn : Byte), s.status = .running → s.pc.toNat ≤ 0xFFE →
    decodeWord (wordOfBytes (s.mem.read s.pc.toNat) (s.mem.read (s.pc.toNat + 1))) = .ok (.rndVxNn x nn) →
    ∃ t, stepWith rnd s = .next t ∧ t.getV x = rnd &&& nn ∧ t.pc = s.pc + 2#16 ∧
      RegsKeptBut [x] s t ∧ OnlyChanges [.pc, .regs] s t

/-! ## Index register and memory -/

/-- R110, R112: `I` becomes the constant, zero-extended, or the address of the glyph of the whole byte `Vx`; their
encodings. -/
def Obligations.IndexLoads : Prop :=
  ∀ (nnn : Addr12) (x : Nibble) (s : State), ∃ t u,
    exec (.ldINnn nnn) s = .next t ∧ exec (.ldFVx x) s = .next u ∧
    t.i.toNat = nnn.toNat ∧ u.i.toNat = 0x100 + 5 * (s.getV x).toNat ∧
    t.pc = s.pc + 2#16 ∧ u.pc = s.pc + 2#16 ∧ OnlyChanges [.pc, .i] s t ∧ OnlyChanges [.pc, .i] s u ∧
    encode (.ldINnn nnn) = 0xA#4 ++ nnn ∧ encode (.ldFVx x) = 0xF#4 ++ x ++ 0x29#8

/-- R111 (modulo 65536 is the spec's decision D10): `I <- I + Vx`, no flag. -/
def Obligations.IndexAdd : Prop :=
  ∀ (x : Nibble) (s : State), ∃ t, exec (.addIVx x) s = .next t ∧
    t.i.toNat = (s.i.toNat + (s.getV x).toNat) % 65536 ∧ t.pc = s.pc + 2#16 ∧ OnlyChanges [.pc, .i] s t

/-- R113 (the range is the spec's decision D3): the decimal digits of `Vx` at `I`, `I + 1`, `I + 2`, every other byte kept. -/
def Obligations.BcdStoresDigits : Prop :=
  ∀ (x : Nibble) (s : State), s.i.toNat + 2 ≤ 0xFFF → ∃ t, exec (.ldBVx x) s = .next t ∧
    (t.mem.read s.i.toNat).toNat = (s.getV x).toNat / 100 ∧
    (t.mem.read (s.i.toNat + 1)).toNat = (s.getV x).toNat / 10 % 10 ∧
    (t.mem.read (s.i.toNat + 2)).toNat = (s.getV x).toNat % 10 ∧
    (∀ a, a < s.i.toNat ∨ s.i.toNat + 2 < a → t.mem.read a = s.mem.read a) ∧
    t.pc = s.pc + 2#16 ∧ OnlyChanges [.pc, .mem] s t

/-- R114 (the range is the spec's decision D3): `V0..Vx` go to ascending addresses from `I`, every other byte kept, `I` kept. -/
def Obligations.StoreRegisters : Prop :=
  ∀ (x : Nibble) (s : State), s.i.toNat + x.toNat ≤ 0xFFF → ∃ t, exec (.ldMemVx x) s = .next t ∧
    (∀ r : Nibble, r.toNat ≤ x.toNat → t.mem.read (s.i.toNat + r.toNat) = s.getV r) ∧
    (∀ a, a < s.i.toNat ∨ s.i.toNat + x.toNat < a → t.mem.read a = s.mem.read a) ∧
    t.pc = s.pc + 2#16 ∧ OnlyChanges [.pc, .mem] s t

/-- R115 (the range is the spec's decision D3): `V0..Vx` come from ascending addresses at `I`, the registers above `Vx` kept,
`I` and memory kept. -/
def Obligations.LoadRegisters : Prop :=
  ∀ (x : Nibble) (s : State), s.i.toNat + x.toNat ≤ 0xFFF → ∃ t, exec (.ldVxMem x) s = .next t ∧
    (∀ r : Nibble, r.toNat ≤ x.toNat → t.getV r = s.mem.read (s.i.toNat + r.toNat)) ∧
    (∀ r : Nibble, x.toNat < r.toNat → t.getV r = s.getV r) ∧
    t.pc = s.pc + 2#16 ∧ OnlyChanges [.pc, .regs] s t

/-- R114, R115, R49: registers stored by `Fx55`, then clobbered in any way with `I` kept, come back by `Fx65`. -/
def Obligations.StoreThenLoadRestores : Prop :=
  ∀ (x : Nibble) (s : State) (regs : Vector Byte 16), s.i.toNat + x.toNat ≤ 0xFFF → ∃ t u,
    exec (.ldMemVx x) s = .next t ∧ exec (.ldVxMem x) { t with v := regs } = .next u ∧
    ∀ r : Nibble, r.toNat ≤ x.toNat → u.getV r = s.getV r

/-- R51, R178 (the spec's decision D21): two bytes stored by `Fx55` over the next instruction are what the next step fetches. -/
def Obligations.StoredBytesAreFetchedNext : Prop :=
  ∀ (s : State) (x r : Nibble) (r' : Nibble) (i : Instr), s.status = .running → s.pc.toNat + 3 ≤ 0xFFF →
    s.i.toNat + x.toNat ≤ 0xFFF →
    decodeWord (wordOfBytes (s.mem.read s.pc.toNat) (s.mem.read (s.pc.toNat + 1))) = .ok (.ldMemVx x) →
    s.i.toNat + r.toNat = s.pc.toNat + 2 → r'.toNat = r.toNat + 1 → r'.toNat ≤ x.toNat →
    decodeWord (wordOfBytes (s.getV r) (s.getV r')) = .ok i →
    ∃ t, step s = .next t ∧ step t = exec i t

/-! ## Display -/

/-- R120: all 2048 cells become 0 and nothing else changes; the encoding. -/
def Obligations.ClearDisplay : Prop :=
  ∀ s : State, ∃ t, exec .cls s = .next t ∧ (∀ row col, t.cell row col = false) ∧
    t.pc = s.pc + 2#16 ∧ OnlyChanges [.pc, .fb] s t ∧ encode .cls = 0x00E0#16

/-- R121, R122 (byte `r` on row `Vy + r` is the spec's general knowledge G3; no wrap and the reading of clipped rows are its
decision D11): a cell changes exactly when a set sprite pixel has it as its target, and `VF` is 1 exactly when one of those
cells was set. The coordinates are those before the draw, also when one of them is `VF` (R71, D9). -/
def Obligations.DrawXorsSprite : Prop :=
  ∀ (x y n : Nibble) (s : State), (n.toNat = 0 ∨ s.i.toNat + n.toNat - 1 ≤ 0xFFF) →
    ∃ t, exec (.drwVxVyN x y n) s = .next t ∧
      (∀ row col, t.cell row col ≠ s.cell row col ↔
        SpriteLit s (s.getV x).toNat (s.getV y).toNat n.toNat row.val col.val) ∧
      ((∃ row col, SpriteLit s (s.getV x).toNat (s.getV y).toNat n.toNat (Fin.val row) (Fin.val col) ∧
        s.cell row col = true) → t.getV 0xF#4 = 0x01#8) ∧
      ((¬ ∃ row col, SpriteLit s (s.getV x).toNat (s.getV y).toNat n.toNat (Fin.val row) (Fin.val col) ∧
        s.cell row col = true) → t.getV 0xF#4 = 0x00#8) ∧
      t.pc = s.pc + 2#16 ∧ RegsKeptBut [0xF#4] s t ∧ OnlyChanges [.pc, .regs, .fb] s t

/-- The exact statement of the document's draw-twice property (95_test_vectors.md S6; R121, 90_conflicts.md C6): the display
is restored, and the second draw reports 1 exactly when a set pixel landed on a cell that was 0 before the first. The flag
clauses rest, through `SpriteLit`, on the spec's general knowledge G3 (byte `r` on row `Vy + r`; log 9) and its decision D11
(no wrap, clipped pixels dropped; log 10). -/
def Obligations.DrawTwiceRestores : Prop :=
  ∀ (x y n : Nibble) (s : State), x ≠ 0xF#4 → y ≠ 0xF#4 →
    (n.toNat = 0 ∨ s.i.toNat + n.toNat - 1 ≤ 0xFFF) →
    ∃ t u, exec (.drwVxVyN x y n) s = .next t ∧ exec (.drwVxVyN x y n) t = .next u ∧
      (∀ row col, u.cell row col = s.cell row col) ∧
      (u.getV 0xF#4 = 0x01#8 ↔ ∃ row col,
        SpriteLit s (s.getV x).toNat (s.getV y).toNat n.toNat (Fin.val row) (Fin.val col) ∧ s.cell row col = false) ∧
      (t.getV 0xF#4 = 0x01#8 ↔ ∃ row col,
        SpriteLit s (s.getV x).toNat (s.getV y).toNat n.toNat (Fin.val row) (Fin.val col) ∧ s.cell row col = true) ∧
      (t.getV 0xF#4 = 0x01#8 ∨ t.getV 0xF#4 = 0x00#8) ∧ (u.getV 0xF#4 = 0x01#8 ∨ u.getV 0xF#4 = 0x00#8) ∧
      RegsKeptBut [0xF#4] s u ∧ OnlyChanges [.pc, .regs] s u

/-- R52, R53, R158, R154, R21, R140: the reads return the cell `64*row + col`, `ST` with `ST != 0`, and `STATUS` with `FAULT`,
and change nothing. That they answer in HALTED too is the spec's decision D16, that `ST != 0` is not gated by `STATUS` its
decision D26 (log 10); the bit of `STATUS` is R21's (D1), the 3-bit codes of the causes are its decision D2. -/
def Obligations.ReadsReturnAndChangeNothing : Prop :=
  ∀ (s : State) (row : Fin 32) (col : Fin 64) (i : Fin 2048), i.val = 64 * row.val + col.val →
    reply (.fbRead i) s = .cell (s.cell row col) ∧ operate (.fbRead i) s = .next s ∧
    reply .soundRead s = .sound s.st (decide (s.st ≠ 0x00#8)) ∧ operate .soundRead s = .next s ∧
    reply .statusRead s = .status s.status s.fault ∧ operate .statusRead s = .next s ∧
    (Status.running.bit = 0#1 ∧ Status.halted.bit = 1#1) ∧
    (FaultCause.none.code = 0#3 ∧ FaultCause.unrecognizedOpcode.code = 1#3 ∧ FaultCause.fetchOutOfRange.code = 2#3 ∧
      FaultCause.dataOutOfRange.code = 3#3 ∧ FaultCause.stackOverflow.code = 4#3 ∧ FaultCause.stackUnderflow.code = 5#3 ∧
      FaultCause.keyIndexOutOfRange.code = 6#3)

/-! ## Keys and timers -/

/-- R130, R131: for a key code in 0..15, SKP skips when the key is pressed and SKNP when it is released, exactly one of them. -/
def Obligations.KeySkips : Prop :=
  ∀ (x k : Nibble) (s : State), (s.getV x).toNat = k.toNat → ∃ t u,
    exec (.skpVx x) s = .next t ∧ exec (.sknpVx x) s = .next u ∧
    (s.keyDown k = true → t.pc = s.pc + 4#16 ∧ u.pc = s.pc + 2#16) ∧
    (s.keyDown k = false → t.pc = s.pc + 2#16 ∧ u.pc = s.pc + 4#16) ∧
    OnlyChanges [.pc] s t ∧ OnlyChanges [.pc] s u

/-- R133 (the lowest code is the spec's decision D8): with a key pressed, `Vx` becomes the least code of a pressed key. -/
def Obligations.KeyWaitStoresLeastCode : Prop :=
  ∀ (x k : Nibble) (s : State), s.keyDown k = true → (∀ j : Nibble, j.toNat < k.toNat → s.keyDown j = false) →
    ∃ t, exec (.ldVxK x) s = .next t ∧ (t.getV x).toNat = k.toNat ∧ t.pc = s.pc + 2#16 ∧
      RegsKeptBut [x] s t ∧ OnlyChanges [.pc, .regs] s t

/-- R133 corner case 1: with no key pressed the step is complete and leaves the whole state unchanged, `PC` included. -/
def Obligations.KeyWaitPolls : Prop :=
  ∀ (x : Nibble) (s : State), (∀ j : Nibble, s.keyDown j = false) → exec (.ldVxK x) s = .next s

/-- R132, R134, R135: the timer moves, each way, and nothing else; their encodings. -/
def Obligations.TimerMoves : Prop :=
  ∀ (x : Nibble) (s : State), ∃ r d u,
    exec (.ldVxDt x) s = .next r ∧ exec (.ldDtVx x) s = .next d ∧ exec (.ldStVx x) s = .next u ∧
    r.getV x = s.dt ∧ d.dt = s.getV x ∧ u.st = s.getV x ∧
    (∀ t ∈ [r, d, u], t.pc = s.pc + 2#16) ∧ RegsKeptBut [x] s r ∧
    OnlyChanges [.pc, .regs] s r ∧ OnlyChanges [.pc, .dt] s d ∧ OnlyChanges [.pc, .st] s u ∧
    encode (.ldVxDt x) = 0xF#4 ++ x ++ 0x07#8 ∧ encode (.ldDtVx x) = 0xF#4 ++ x ++ 0x15#8 ∧
    encode (.ldStVx x) = 0xF#4 ++ x ++ 0x18#8

/-- R156: `Tick` decrements each timer that is not zero, independently; no wrap below zero; nothing else changes, and nothing
at all in a halted machine, which is the spec's decision D16 (R154, log 10). -/
def Obligations.TickCountsDown : Prop :=
  ∀ s : State,
    (s.status = .running → (tick s).dt.toNat = s.dt.toNat - 1 ∧ (tick s).st.toNat = s.st.toNat - 1) ∧
    (s.status = .halted → tick s = s) ∧ OnlyChanges [.dt, .st] s (tick s)

/-- R157: after `n` ticks of a running machine a timer that held `v` holds `max(v - n, 0)`. -/
def Obligations.TicksReachZero : Prop :=
  ∀ (n : Nat) (s : State), s.status = .running → ∃ t,
    runOperations (List.replicate n .tick) s = .next t ∧
    t.dt.toNat = s.dt.toNat - n ∧ t.st.toNat = s.st.toNat - n ∧ OnlyChanges [.dt, .st] s t

/-- R159: `KeyWrite(k, v)` sets one key cell and nothing else; that it acts in HALTED too is the spec's decision D16 (R154,
log 10). -/
def Obligations.KeyWriteSetsOneCell : Prop :=
  ∀ (k : Nibble) (v : Bool) (s : State), ∃ t, operate (.keyWrite k v) s = .next t ∧ t.keyDown k = v ∧
    (∀ j, j ≠ k → t.keyDown j = s.keyDown j) ∧ OnlyChanges [.k] s t

/-- R181 (the spec's decision D15), for every combination of requests. A `Reset` acts first and cancels `Step` and `Tick`, a
`KeyWrite` with it acts on the state it leaves (log 14), and where it is refused (an image that is too long, the spec's
decision D19) so is the cycle. Without a `Reset` the order is `KeyWrite`, `Step`, `Tick`, each left out where it was not
requested, and a step that stops (log 3) stops the cycle. Each read returns what it reads in the state before the cycle,
whatever the writes do (in HALTED too: D16; `ST != 0` not gated by `STATUS`: D26; log 10). -/
def Obligations.CycleSerialisesRequests : Prop :=
  ∀ (r : Requests) (s : State),
    (∀ image, r.reset = some image →
      (∀ t, resetImage image = .next t →
        (r.keyWrite = none → (cycle r s).1 = .next t) ∧
        (∀ k v, r.keyWrite = some (k, v) → (cycle r s).1 = .next (keyWrite k v t))) ∧
      (∀ e, resetImage image = .refused e → (cycle r s).1 = .refused e)) ∧
    (r.reset = none → ∀ s₁,
      (r.keyWrite = none → s₁ = s) → (∀ k v, r.keyWrite = some (k, v) → s₁ = keyWrite k v s) →
      (r.step = none → (cycle r s).1 = .next (if r.tick then tick s₁ else s₁)) ∧
      (∀ rnd, r.step = some rnd →
        (∀ t, stepWith rnd s₁ = .next t → (cycle r s).1 = .next (if r.tick then tick t else t)) ∧
        (∀ f, stepWith rnd s₁ = .fault f → (cycle r s).1 = .fault f))) ∧
    ((r.fbRead = none → (cycle r s).2.fb = none) ∧
      (∀ (i : Fin 2048) (row : Fin 32) (col : Fin 64), r.fbRead = some i → i.val = 64 * row.val + col.val →
        (cycle r s).2.fb = some (.cell (s.cell row col)))) ∧
    (cycle r s).2.sound = (if r.soundRead then some (.sound s.st (decide (s.st ≠ 0x00#8))) else none) ∧
    (cycle r s).2.status = (if r.statusRead then some (.status s.status s.fault) else none)

/-! ## Invariants -/

/-- The reset state is legal, for every accepted image. -/
def Obligations.ResetIsLegal : Prop :=
  Legal State.reset ∧ ∀ (image : List Byte) (t : State), resetImage image = .next t → Legal t

/-- R24, R21: every step keeps a legal state legal: memory canonical, `PC` and `SP` in range, held stack entries `npc`s,
`STATUS` and `FAULT` in agreement. -/
def Obligations.StepKeepsLegal : Prop :=
  ∀ s t : State, Legal s → step s = .next t → Legal t

/-- R186, R147: nothing can make a step misbehave: from a legal state every step answers a next state. -/
def Obligations.LegalStepAnswers : Prop :=
  ∀ s : State, Legal s → ∃ t, step s = .next t

/-- R186: every operation with its arguments in range answers from a legal state, and the state it leaves is legal. -/
def Obligations.OperationsKeepLegal : Prop :=
  ∀ (op : Operation) (s : State), Legal s → (∀ image, op = .reset image → image.length ≤ 3584) →
    ∃ t, operate op s = .next t ∧ Legal t

/-- R24: the values reachable from `Reset`: `PC` in 0x0000..0x10FE, `SP` in 0x00..0x0F or 0xFF, and every stack entry a pop
can return in 0x0002..0x1000. -/
def Obligations.ReachableStatesStayInRange : Prop :=
  ∀ s : State, Reachable s → s.pc.toNat ≤ 0x10FE ∧ SpLegal s.sp ∧
    (∀ j : Fin 16, EntryHeld s.sp j → 0x0002 ≤ s.stack[j].toNat ∧ s.stack[j].toNat ≤ 0x1000) ∧
    (s.status = .halted ↔ s.fault.cause ≠ .none)
end

