-- ==== Sys2Proof/Laws/Decode.lean ====
section
/-! SUPPORT. Fields of packed words and packings of fields: the bit-level facts that decode and encode rest on. -/

namespace Sys2Proof

variable (op x y n : Nibble) (nn : Byte) (nnn : Addr12) (w : Word)

/-! ## Packed words are the concatenations of 30_encoding.md R62 -/

theorem packXYN_eq_append : packXYN op x y n = (op ++ x ++ y ++ n : BitVec (4 + 4 + 4 + 4)) := by
  apply BitVec.eq_of_getLsbD_eq
  intro i hi
  rw [BitVec.getLsbD_append, BitVec.getLsbD_append, BitVec.getLsbD_append]
  interval_cases i <;> simp [packXYN]

theorem packXNN_eq_append : packXNN op x nn = (op ++ x ++ nn : BitVec (4 + 4 + 8)) := by
  apply BitVec.eq_of_getLsbD_eq
  intro i hi
  rw [BitVec.getLsbD_append, BitVec.getLsbD_append]
  interval_cases i <;> simp [packXNN]

theorem packNNN_eq_append : packNNN op nnn = (op ++ nnn : BitVec (4 + 12)) := by
  apply BitVec.eq_of_getLsbD_eq
  intro i hi
  rw [BitVec.getLsbD_append]
  interval_cases i <;> simp [packNNN]

/-- `encode` lays its fields out as the rules draw them. -/
theorem encode_eq_layout (i : Instr) : encode i = i.layout := by
  cases i <;> first | exact packXYN_eq_append .. | exact packXNN_eq_append .. | exact packNNN_eq_append .. | rfl

/-! ## Fields of packed words -/

@[simp] theorem fieldOp_packXYN : fieldOp (packXYN op x y n) = op := by
  ext i hi; interval_cases i <;> simp [fieldOp, packXYN]
@[simp] theorem fieldX_packXYN : fieldX (packXYN op x y n) = x := by
  ext i hi; interval_cases i <;> simp [fieldX, packXYN]
@[simp] theorem fieldY_packXYN : fieldY (packXYN op x y n) = y := by
  ext i hi; interval_cases i <;> simp [fieldY, packXYN]
@[simp] theorem fieldN_packXYN : fieldN (packXYN op x y n) = n := by
  ext i hi; interval_cases i <;> simp [fieldN, packXYN]
@[simp] theorem fieldOp_packXNN : fieldOp (packXNN op x nn) = op := by
  ext i hi; interval_cases i <;> simp [fieldOp, packXNN]
@[simp] theorem fieldX_packXNN : fieldX (packXNN op x nn) = x := by
  ext i hi; interval_cases i <;> simp [fieldX, packXNN]
@[simp] theorem fieldNn_packXNN : fieldNn (packXNN op x nn) = nn := by
  ext i hi; interval_cases i <;> simp [fieldNn, packXNN]
@[simp] theorem fieldOp_packNNN : fieldOp (packNNN op nnn) = op := by
  ext i hi; interval_cases i <;> simp [fieldOp, packNNN]
@[simp] theorem fieldNnn_packNNN : fieldNnn (packNNN op nnn) = nnn := by
  ext i hi; interval_cases i <;> simp [fieldNnn, packNNN]

/-! ## A word is the packing of its fields -/

theorem packXYN_fields : packXYN (fieldOp w) (fieldX w) (fieldY w) (fieldN w) = w := by
  ext i hi; interval_cases i <;> simp [packXYN, fieldOp, fieldX, fieldY, fieldN]
theorem packXNN_fields : packXNN (fieldOp w) (fieldX w) (fieldNn w) = w := by
  ext i hi; interval_cases i <;> simp [packXNN, fieldOp, fieldX, fieldNn]
theorem packNNN_fields : packNNN (fieldOp w) (fieldNnn w) = w := by
  ext i hi; interval_cases i <;> simp [packNNN, fieldOp, fieldNnn]

/-! ## The two bytes of a word -/

@[simp] theorem wordOfBytes_hi_lo : wordOfBytes (wordHi w) (wordLo w) = w := by
  ext i hi; interval_cases i <;> simp [wordOfBytes, wordHi, wordLo]
@[simp] theorem wordHi_wordOfBytes (hi lo : Byte) : wordHi (wordOfBytes hi lo) = hi := by
  ext i h; interval_cases i <;> simp [wordOfBytes, wordHi]
@[simp] theorem wordLo_wordOfBytes (hi lo : Byte) : wordLo (wordOfBytes hi lo) = lo := by
  ext i h; interval_cases i <;> simp [wordOfBytes, wordLo]

/-! ## Masks of the opcode map -/

theorem and_F000 : w &&& 0xF000#16 = packNNN (fieldOp w) 0#12 := by
  ext i hi; interval_cases i <;> simp [packNNN, fieldOp]
theorem and_F00F : w &&& 0xF00F#16 = packXYN (fieldOp w) 0#4 0#4 (fieldN w) := by
  ext i hi; interval_cases i <;> simp [packXYN, fieldOp, fieldN]
theorem and_F0FF : w &&& 0xF0FF#16 = packXNN (fieldOp w) 0#4 (fieldNn w) := by
  ext i hi; interval_cases i <;> simp [packXNN, fieldOp, fieldNn]

/-- Bytes that decode: at least two of them, the first two a word that decodes. -/
theorem decode_eq_ok {bytes rest : List Byte} {i : Instr} :
    decode bytes = .ok (i, rest) ↔ ∃ hi lo, bytes = hi :: lo :: rest ∧ decodeWord (wordOfBytes hi lo) = .ok i := by
  match bytes with
  | [] => simp [decode]
  | [_] => simp [decode]
  | hi :: lo :: more =>
    unfold decode
    cases h : decodeWord (wordOfBytes hi lo) <;> simp [h, and_comm, eq_comm]

theorem decodeTableWord_16 (v : Nat) (i : Instr) :
    decodeTableWord 16 v = some i ↔ decodeWord (tableWord 16 v) = .ok i := by
  unfold decodeTableWord decode
  simp only [wordOfBytes_hi_lo]
  cases decodeWord (tableWord 16 v) <;> simp

end Sys2Proof
end

