-- ==== Sys2Proof/Laws/Memory.lean ====
section
/-! SUPPORT. Main memory: reading after writing, and that every operation keeps the canonical form. -/

namespace Sys2Proof.Machine

variable {m m' : Memory} {a b : Nat} {w : Byte}

theorem Memory.unlisted_font {j : Nat} (h : j < 80) : Memory.unlisted (0x100 + j) = fontByte j := by
  unfold Memory.unlisted
  rw [if_pos ⟨by simp [Config.fontBase], by simp only [Config.fontBase, Config.fontBytes]; omega⟩]
  simp [Config.fontBase]

theorem Memory.unlisted_of_not_font {a : Nat} (h : a < 0x100 ∨ 0x150 ≤ a) : Memory.unlisted a = 0x00#8 := by
  unfold Memory.unlisted
  rw [if_neg (by simp only [Config.fontBase, Config.fontBytes]; omega)]

@[simp] theorem Memory.read_nil (a : Nat) : Memory.read [] a = Memory.unlisted a := rfl

theorem Memory.read_cons (c : Host.Cell) (m : Memory) (a : Nat) :
    Memory.read (c :: m) a = if a = c.1 then c.2 else Memory.read m a := rfl

theorem Memory.read_erase (m : Memory) (a b : Nat) :
    (m.erase a).read b = if b = a then Memory.unlisted b else m.read b := by
  induction m with
  | nil => simp [Memory.erase]
  | cons c m ih =>
    simp only [Memory.erase] at ih
    by_cases hc : c.1 = a
    · simp only [Memory.erase, List.filter_cons, hc, bne_self_eq_false, Bool.false_eq_true, if_false, ih, Memory.read_cons]
      split <;> simp_all
    · have hne : (c.1 != a) = true := by simpa using hc
      simp only [Memory.erase, List.filter_cons, hne, if_true, Memory.read_cons, ih]
      by_cases hb : b = c.1
      · subst hb; simp [hc]
      · simp [hb]

theorem Memory.read_insert (m : Memory) (a : Nat) (w : Byte) (h : ∀ c ∈ m, c.1 ≠ a) (b : Nat) :
    (m.insert a w).read b = if b = a then w else m.read b := by
  induction m with
  | nil => rfl
  | cons c m ih =>
    have hc : c.1 ≠ a := h c (by simp)
    have ih := ih fun d hd => h d (by simp [hd])
    simp only [Memory.insert]
    split
    · rfl
    · rw [Memory.read_cons, Memory.read_cons, ih]
      by_cases hb : b = c.1
      · subst hb; simp [hc]
      · simp [hb]

theorem Memory.ne_of_mem_erase {c : Host.Cell} (h : c ∈ m.erase a) : c.1 ≠ a := by
  simpa using (List.mem_filter.mp h).2

/-- A read after a write: the written byte at its address, every other address as before. -/
theorem Memory.read_write (m : Memory) (a : Nat) (w : Byte) (b : Nat) :
    (m.write a w).read b = if b = a then w else m.read b := by
  unfold Memory.write
  split
  · next hw =>
    rw [Memory.read_erase]
    split
    · next h => rw [h, hw]
    · rfl
  · rw [Memory.read_insert _ _ _ (fun c hc => Memory.ne_of_mem_erase hc), Memory.read_erase]
    split <;> rfl

@[simp] theorem Memory.read_write_same (m : Memory) (a : Nat) (w : Byte) : (m.write a w).read a = w := by
  simp [Memory.read_write]

theorem Memory.read_write_ne (m : Memory) (w : Byte) (h : b ≠ a) : (m.write a w).read b = m.read b := by
  simp [Memory.read_write, h]

/-- A read after bytes were written at ascending addresses. -/
theorem Memory.read_writeBytes (m : Memory) (a : Nat) (ws : List Byte) (b : Nat) :
    (m.writeBytes a ws).read b = if a ≤ b then (ws[b - a]?).getD (m.read b) else m.read b := by
  induction ws generalizing m a with
  | nil => simp [Memory.writeBytes]
  | cons w ws ih =>
    rw [Memory.writeBytes, ih, Memory.read_write]
    by_cases hab : b = a
    · subst hab
      simp
    · by_cases hlt : a < b
      · have h1 : a + 1 ≤ b := hlt
        have h2 : b - a = (b - (a + 1)) + 1 := by omega
        simp [h1, hlt.le, hab, h2]
      · have h1 : ¬ a + 1 ≤ b := by omega
        have h2 : ¬ a ≤ b := by omega
        simp [h1, h2, hab]

theorem Memory.erase_wf (h : m.wf) (a : Nat) : (m.erase a).wf :=
  ⟨h.1.filter _, fun c hc => h.2 c (List.mem_filter.mp hc).1⟩

theorem Memory.mem_insert {c : Host.Cell} : c ∈ m.insert a w ↔ c = (a, w) ∨ c ∈ m := by
  induction m with
  | nil => simp [Memory.insert]
  | cons d m ih =>
    simp only [Memory.insert]
    split
    · simp
    · simp [ih]; tauto

theorem Memory.insert_wf (h : m.wf) (hne : ∀ c ∈ m, c.1 ≠ a) (ha : a < Config.memSize)
    (hw : w ≠ Memory.unlisted a) : (m.insert a w).wf := by
  refine ⟨?_, fun c hc => ?_⟩
  · obtain ⟨hs, -⟩ := h
    induction m with
    | nil => simp [Memory.insert]
    | cons d m ih =>
      have hd : d.1 ≠ a := hne d (by simp)
      rw [List.pairwise_cons] at hs
      simp only [Memory.insert]
      split
      · next hlt =>
        rw [List.pairwise_cons, List.pairwise_cons]
        refine ⟨fun e he => ?_, hs⟩
        rcases List.mem_cons.mp he with rfl | he
        · exact hlt
        · exact hlt.trans (hs.1 e he)
      · next hlt =>
        have ih := ih (fun c hc => hne c (by simp [hc])) hs.2
        rw [List.pairwise_cons]
        refine ⟨fun e he => ?_, ih⟩
        rcases Memory.mem_insert.mp he with rfl | he
        · show d.1 < a
          omega
        · exact hs.1 e he
  · rcases Memory.mem_insert.mp hc with rfl | hc
    · exact ⟨ha, hw⟩
    · exact h.2 c hc

/-- A write inside the address space keeps the canonical form. -/
theorem Memory.write_wf (h : m.wf) (ha : a < Config.memSize) (w : Byte) : (m.write a w).wf := by
  unfold Memory.write
  split
  · exact Memory.erase_wf h a
  · next hw => exact Memory.insert_wf (Memory.erase_wf h a) (fun c hc => Memory.ne_of_mem_erase hc) ha hw

/-- Writing bytes inside the address space keeps the canonical form. -/
theorem Memory.writeBytes_wf (h : m.wf) (ws : List Byte) (ha : a + ws.length ≤ Config.memSize) :
    (m.writeBytes a ws).wf := by
  induction ws generalizing m a with
  | nil => exact h
  | cons w ws ih =>
    simp only [List.length_cons] at ha
    exact ih (Memory.write_wf h (by omega) w) (by omega)

theorem Memory.nil_wf : Memory.wf [] := ⟨List.Pairwise.nil, by simp⟩

/-- In a canonical memory the head's address reads as no unlisted byte, and nothing lower is listed. -/
theorem Memory.read_of_lt_all (h : ∀ c ∈ m, a < c.1) : m.read a = Memory.unlisted a := by
  induction m with
  | nil => rfl
  | cons c m ih =>
    have hc : a < c.1 := h c (by simp)
    rw [Memory.read_cons, if_neg (by omega), ih fun d hd => h d (by simp [hd])]

/-- Equal memories are equal data: two canonical memories that read alike everywhere are the same list. -/
theorem Memory.ext_of_wf (h : m.wf) (h' : m'.wf) (hr : ∀ a, m.read a = m'.read a) : m = m' := by
  induction m generalizing m' with
  | nil =>
    cases m' with
    | nil => rfl
    | cons c m' =>
      have := hr c.1
      rw [Memory.read_nil, Memory.read_cons, if_pos rfl] at this
      exact absurd this.symm (h'.2 c (by simp)).2
  | cons c m ih =>
    cases m' with
    | nil =>
      have := hr c.1
      rw [Memory.read_nil, Memory.read_cons, if_pos rfl] at this
      exact absurd this (h.2 c (by simp)).2
    | cons d m' =>
      have hs := List.pairwise_cons.mp h.1
      have hs' := List.pairwise_cons.mp h'.1
      have hkey : c.1 = d.1 := by
        rcases Nat.lt_trichotomy c.1 d.1 with hlt | heq | hlt
        · have := hr c.1
          rw [Memory.read_cons, if_pos rfl, Memory.read_cons, if_neg (by omega),
            Memory.read_of_lt_all (fun e he => hlt.trans (hs'.1 e he))] at this
          exact absurd this (h.2 c (by simp)).2
        · exact heq
        · have := hr d.1
          rw [Memory.read_cons, if_neg (by omega), Memory.read_cons, if_pos rfl,
            Memory.read_of_lt_all (fun e he => hlt.trans (hs.1 e he))] at this
          exact absurd this.symm (h'.2 d (by simp)).2
      have hval : c.2 = d.2 := by
        have := hr c.1
        rwa [Memory.read_cons, if_pos rfl, Memory.read_cons, if_pos hkey] at this
      have htail : m = m' := by
        refine ih ⟨hs.2, fun e he => h.2 e (by simp [he])⟩ ⟨hs'.2, fun e he => h'.2 e (by simp [he])⟩ fun a => ?_
        have := hr a
        rw [Memory.read_cons, Memory.read_cons] at this
        by_cases ha : a = c.1
        · subst ha
          rw [Memory.read_of_lt_all hs.1, hkey, Memory.read_of_lt_all hs'.1]
        · rwa [if_neg ha, if_neg (by rwa [← hkey])] at this
      rw [htail, Prod.ext hkey hval]

end Sys2Proof.Machine
end

