-- ==== Sys2Proof/Laws/State.lean ====
section
/-! SUPPORT. What each named update of the state does to each field, and to the registers read through `getV`. -/

namespace Sys2Proof.Machine

variable (s : State)

@[simp] theorem State.setV_mem (x : Nibble) (b : Byte) : (s.setV x b).mem = s.mem := rfl
@[simp] theorem State.setV_v (x : Nibble) (b : Byte) : (s.setV x b).v = s.v.set x.toNat b x.isLt := rfl
@[simp] theorem State.setV_i (x : Nibble) (b : Byte) : (s.setV x b).i = s.i := rfl
@[simp] theorem State.setV_pc (x : Nibble) (b : Byte) : (s.setV x b).pc = s.pc := rfl
@[simp] theorem State.setV_sp (x : Nibble) (b : Byte) : (s.setV x b).sp = s.sp := rfl
@[simp] theorem State.setV_stack (x : Nibble) (b : Byte) : (s.setV x b).stack = s.stack := rfl
@[simp] theorem State.setV_dt (x : Nibble) (b : Byte) : (s.setV x b).dt = s.dt := rfl
@[simp] theorem State.setV_st (x : Nibble) (b : Byte) : (s.setV x b).st = s.st := rfl
@[simp] theorem State.setV_k (x : Nibble) (b : Byte) : (s.setV x b).k = s.k := rfl
@[simp] theorem State.setV_fb (x : Nibble) (b : Byte) : (s.setV x b).fb = s.fb := rfl
@[simp] theorem State.setV_status (x : Nibble) (b : Byte) : (s.setV x b).status = s.status := rfl
@[simp] theorem State.setV_fault (x : Nibble) (b : Byte) : (s.setV x b).fault = s.fault := rfl
@[simp] theorem State.setV_rndIn (x : Nibble) (b : Byte) : (s.setV x b).rndIn = s.rndIn := rfl
@[simp] theorem State.setV_rndCount (x : Nibble) (b : Byte) : (s.setV x b).rndCount = s.rndCount := rfl

@[simp] theorem State.setI_mem (w : Word) : (s.setI w).mem = s.mem := rfl
@[simp] theorem State.setI_v (w : Word) : (s.setI w).v = s.v := rfl
@[simp] theorem State.setI_i (w : Word) : (s.setI w).i = w := rfl
@[simp] theorem State.setI_pc (w : Word) : (s.setI w).pc = s.pc := rfl
@[simp] theorem State.setI_sp (w : Word) : (s.setI w).sp = s.sp := rfl
@[simp] theorem State.setI_stack (w : Word) : (s.setI w).stack = s.stack := rfl
@[simp] theorem State.setI_dt (w : Word) : (s.setI w).dt = s.dt := rfl
@[simp] theorem State.setI_st (w : Word) : (s.setI w).st = s.st := rfl
@[simp] theorem State.setI_k (w : Word) : (s.setI w).k = s.k := rfl
@[simp] theorem State.setI_fb (w : Word) : (s.setI w).fb = s.fb := rfl
@[simp] theorem State.setI_status (w : Word) : (s.setI w).status = s.status := rfl
@[simp] theorem State.setI_fault (w : Word) : (s.setI w).fault = s.fault := rfl
@[simp] theorem State.setI_rndIn (w : Word) : (s.setI w).rndIn = s.rndIn := rfl
@[simp] theorem State.setI_rndCount (w : Word) : (s.setI w).rndCount = s.rndCount := rfl
@[simp] theorem State.setI_getV (w : Word) (r : Nibble) : (s.setI w).getV r = s.getV r := rfl

@[simp] theorem State.setDt_mem (b : Byte) : (s.setDt b).mem = s.mem := rfl
@[simp] theorem State.setDt_v (b : Byte) : (s.setDt b).v = s.v := rfl
@[simp] theorem State.setDt_i (b : Byte) : (s.setDt b).i = s.i := rfl
@[simp] theorem State.setDt_pc (b : Byte) : (s.setDt b).pc = s.pc := rfl
@[simp] theorem State.setDt_sp (b : Byte) : (s.setDt b).sp = s.sp := rfl
@[simp] theorem State.setDt_stack (b : Byte) : (s.setDt b).stack = s.stack := rfl
@[simp] theorem State.setDt_dt (b : Byte) : (s.setDt b).dt = b := rfl
@[simp] theorem State.setDt_st (b : Byte) : (s.setDt b).st = s.st := rfl
@[simp] theorem State.setDt_k (b : Byte) : (s.setDt b).k = s.k := rfl
@[simp] theorem State.setDt_fb (b : Byte) : (s.setDt b).fb = s.fb := rfl
@[simp] theorem State.setDt_status (b : Byte) : (s.setDt b).status = s.status := rfl
@[simp] theorem State.setDt_fault (b : Byte) : (s.setDt b).fault = s.fault := rfl
@[simp] theorem State.setDt_rndIn (b : Byte) : (s.setDt b).rndIn = s.rndIn := rfl
@[simp] theorem State.setDt_rndCount (b : Byte) : (s.setDt b).rndCount = s.rndCount := rfl
@[simp] theorem State.setDt_getV (b : Byte) (r : Nibble) : (s.setDt b).getV r = s.getV r := rfl

@[simp] theorem State.setSt_mem (b : Byte) : (s.setSt b).mem = s.mem := rfl
@[simp] theorem State.setSt_v (b : Byte) : (s.setSt b).v = s.v := rfl
@[simp] theorem State.setSt_i (b : Byte) : (s.setSt b).i = s.i := rfl
@[simp] theorem State.setSt_pc (b : Byte) : (s.setSt b).pc = s.pc := rfl
@[simp] theorem State.setSt_sp (b : Byte) : (s.setSt b).sp = s.sp := rfl
@[simp] theorem State.setSt_stack (b : Byte) : (s.setSt b).stack = s.stack := rfl
@[simp] theorem State.setSt_dt (b : Byte) : (s.setSt b).dt = s.dt := rfl
@[simp] theorem State.setSt_st (b : Byte) : (s.setSt b).st = b := rfl
@[simp] theorem State.setSt_k (b : Byte) : (s.setSt b).k = s.k := rfl
@[simp] theorem State.setSt_fb (b : Byte) : (s.setSt b).fb = s.fb := rfl
@[simp] theorem State.setSt_status (b : Byte) : (s.setSt b).status = s.status := rfl
@[simp] theorem State.setSt_fault (b : Byte) : (s.setSt b).fault = s.fault := rfl
@[simp] theorem State.setSt_rndIn (b : Byte) : (s.setSt b).rndIn = s.rndIn := rfl
@[simp] theorem State.setSt_rndCount (b : Byte) : (s.setSt b).rndCount = s.rndCount := rfl
@[simp] theorem State.setSt_getV (b : Byte) (r : Nibble) : (s.setSt b).getV r = s.getV r := rfl

@[simp] theorem State.setSp_mem (b : Byte) : (s.setSp b).mem = s.mem := rfl
@[simp] theorem State.setSp_v (b : Byte) : (s.setSp b).v = s.v := rfl
@[simp] theorem State.setSp_i (b : Byte) : (s.setSp b).i = s.i := rfl
@[simp] theorem State.setSp_pc (b : Byte) : (s.setSp b).pc = s.pc := rfl
@[simp] theorem State.setSp_sp (b : Byte) : (s.setSp b).sp = b := rfl
@[simp] theorem State.setSp_stack (b : Byte) : (s.setSp b).stack = s.stack := rfl
@[simp] theorem State.setSp_dt (b : Byte) : (s.setSp b).dt = s.dt := rfl
@[simp] theorem State.setSp_st (b : Byte) : (s.setSp b).st = s.st := rfl
@[simp] theorem State.setSp_k (b : Byte) : (s.setSp b).k = s.k := rfl
@[simp] theorem State.setSp_fb (b : Byte) : (s.setSp b).fb = s.fb := rfl
@[simp] theorem State.setSp_status (b : Byte) : (s.setSp b).status = s.status := rfl
@[simp] theorem State.setSp_fault (b : Byte) : (s.setSp b).fault = s.fault := rfl
@[simp] theorem State.setSp_rndIn (b : Byte) : (s.setSp b).rndIn = s.rndIn := rfl
@[simp] theorem State.setSp_rndCount (b : Byte) : (s.setSp b).rndCount = s.rndCount := rfl
@[simp] theorem State.setSp_getV (b : Byte) (r : Nibble) : (s.setSp b).getV r = s.getV r := rfl

@[simp] theorem State.setStack_mem (f : Vector Word 16) : (s.setStack f).mem = s.mem := rfl
@[simp] theorem State.setStack_v (f : Vector Word 16) : (s.setStack f).v = s.v := rfl
@[simp] theorem State.setStack_i (f : Vector Word 16) : (s.setStack f).i = s.i := rfl
@[simp] theorem State.setStack_pc (f : Vector Word 16) : (s.setStack f).pc = s.pc := rfl
@[simp] theorem State.setStack_sp (f : Vector Word 16) : (s.setStack f).sp = s.sp := rfl
@[simp] theorem State.setStack_stack (f : Vector Word 16) : (s.setStack f).stack = f := rfl
@[simp] theorem State.setStack_dt (f : Vector Word 16) : (s.setStack f).dt = s.dt := rfl
@[simp] theorem State.setStack_st (f : Vector Word 16) : (s.setStack f).st = s.st := rfl
@[simp] theorem State.setStack_k (f : Vector Word 16) : (s.setStack f).k = s.k := rfl
@[simp] theorem State.setStack_fb (f : Vector Word 16) : (s.setStack f).fb = s.fb := rfl
@[simp] theorem State.setStack_status (f : Vector Word 16) : (s.setStack f).status = s.status := rfl
@[simp] theorem State.setStack_fault (f : Vector Word 16) : (s.setStack f).fault = s.fault := rfl
@[simp] theorem State.setStack_rndIn (f : Vector Word 16) : (s.setStack f).rndIn = s.rndIn := rfl
@[simp] theorem State.setStack_rndCount (f : Vector Word 16) : (s.setStack f).rndCount = s.rndCount := rfl
@[simp] theorem State.setStack_getV (f : Vector Word 16) (r : Nibble) : (s.setStack f).getV r = s.getV r := rfl

@[simp] theorem State.setK_mem (f : Vector Bool 16) : (s.setK f).mem = s.mem := rfl
@[simp] theorem State.setK_v (f : Vector Bool 16) : (s.setK f).v = s.v := rfl
@[simp] theorem State.setK_i (f : Vector Bool 16) : (s.setK f).i = s.i := rfl
@[simp] theorem State.setK_pc (f : Vector Bool 16) : (s.setK f).pc = s.pc := rfl
@[simp] theorem State.setK_sp (f : Vector Bool 16) : (s.setK f).sp = s.sp := rfl
@[simp] theorem State.setK_stack (f : Vector Bool 16) : (s.setK f).stack = s.stack := rfl
@[simp] theorem State.setK_dt (f : Vector Bool 16) : (s.setK f).dt = s.dt := rfl
@[simp] theorem State.setK_st (f : Vector Bool 16) : (s.setK f).st = s.st := rfl
@[simp] theorem State.setK_k (f : Vector Bool 16) : (s.setK f).k = f := rfl
@[simp] theorem State.setK_fb (f : Vector Bool 16) : (s.setK f).fb = s.fb := rfl
@[simp] theorem State.setK_status (f : Vector Bool 16) : (s.setK f).status = s.status := rfl
@[simp] theorem State.setK_fault (f : Vector Bool 16) : (s.setK f).fault = s.fault := rfl
@[simp] theorem State.setK_rndIn (f : Vector Bool 16) : (s.setK f).rndIn = s.rndIn := rfl
@[simp] theorem State.setK_rndCount (f : Vector Bool 16) : (s.setK f).rndCount = s.rndCount := rfl
@[simp] theorem State.setK_getV (f : Vector Bool 16) (r : Nibble) : (s.setK f).getV r = s.getV r := rfl

@[simp] theorem State.setRndIn_mem (l : List Byte) : (s.setRndIn l).mem = s.mem := rfl
@[simp] theorem State.setRndIn_v (l : List Byte) : (s.setRndIn l).v = s.v := rfl
@[simp] theorem State.setRndIn_i (l : List Byte) : (s.setRndIn l).i = s.i := rfl
@[simp] theorem State.setRndIn_pc (l : List Byte) : (s.setRndIn l).pc = s.pc := rfl
@[simp] theorem State.setRndIn_sp (l : List Byte) : (s.setRndIn l).sp = s.sp := rfl
@[simp] theorem State.setRndIn_stack (l : List Byte) : (s.setRndIn l).stack = s.stack := rfl
@[simp] theorem State.setRndIn_dt (l : List Byte) : (s.setRndIn l).dt = s.dt := rfl
@[simp] theorem State.setRndIn_st (l : List Byte) : (s.setRndIn l).st = s.st := rfl
@[simp] theorem State.setRndIn_k (l : List Byte) : (s.setRndIn l).k = s.k := rfl
@[simp] theorem State.setRndIn_fb (l : List Byte) : (s.setRndIn l).fb = s.fb := rfl
@[simp] theorem State.setRndIn_status (l : List Byte) : (s.setRndIn l).status = s.status := rfl
@[simp] theorem State.setRndIn_fault (l : List Byte) : (s.setRndIn l).fault = s.fault := rfl
@[simp] theorem State.setRndIn_rndIn (l : List Byte) : (s.setRndIn l).rndIn = l := rfl
@[simp] theorem State.setRndIn_rndCount (l : List Byte) : (s.setRndIn l).rndCount = s.rndCount := rfl
@[simp] theorem State.setRndIn_getV (l : List Byte) (r : Nibble) : (s.setRndIn l).getV r = s.getV r := rfl

@[simp] theorem State.setRndCount_mem (n : Nat) : (s.setRndCount n).mem = s.mem := rfl
@[simp] theorem State.setRndCount_v (n : Nat) : (s.setRndCount n).v = s.v := rfl
@[simp] theorem State.setRndCount_i (n : Nat) : (s.setRndCount n).i = s.i := rfl
@[simp] theorem State.setRndCount_pc (n : Nat) : (s.setRndCount n).pc = s.pc := rfl
@[simp] theorem State.setRndCount_sp (n : Nat) : (s.setRndCount n).sp = s.sp := rfl
@[simp] theorem State.setRndCount_stack (n : Nat) : (s.setRndCount n).stack = s.stack := rfl
@[simp] theorem State.setRndCount_dt (n : Nat) : (s.setRndCount n).dt = s.dt := rfl
@[simp] theorem State.setRndCount_st (n : Nat) : (s.setRndCount n).st = s.st := rfl
@[simp] theorem State.setRndCount_k (n : Nat) : (s.setRndCount n).k = s.k := rfl
@[simp] theorem State.setRndCount_fb (n : Nat) : (s.setRndCount n).fb = s.fb := rfl
@[simp] theorem State.setRndCount_status (n : Nat) : (s.setRndCount n).status = s.status := rfl
@[simp] theorem State.setRndCount_fault (n : Nat) : (s.setRndCount n).fault = s.fault := rfl
@[simp] theorem State.setRndCount_rndIn (n : Nat) : (s.setRndCount n).rndIn = s.rndIn := rfl
@[simp] theorem State.setRndCount_rndCount (n : Nat) : (s.setRndCount n).rndCount = n := rfl
@[simp] theorem State.setRndCount_getV (n : Nat) (r : Nibble) : (s.setRndCount n).getV r = s.getV r := rfl

@[simp] theorem State.setPc_mem (w : Word) : (s.setPc w).mem = s.mem := rfl
@[simp] theorem State.setPc_v (w : Word) : (s.setPc w).v = s.v := rfl
@[simp] theorem State.setPc_i (w : Word) : (s.setPc w).i = s.i := rfl
@[simp] theorem State.setPc_pc (w : Word) : (s.setPc w).pc = w := rfl
@[simp] theorem State.setPc_sp (w : Word) : (s.setPc w).sp = s.sp := rfl
@[simp] theorem State.setPc_stack (w : Word) : (s.setPc w).stack = s.stack := rfl
@[simp] theorem State.setPc_dt (w : Word) : (s.setPc w).dt = s.dt := rfl
@[simp] theorem State.setPc_st (w : Word) : (s.setPc w).st = s.st := rfl
@[simp] theorem State.setPc_k (w : Word) : (s.setPc w).k = s.k := rfl
@[simp] theorem State.setPc_fb (w : Word) : (s.setPc w).fb = s.fb := rfl
@[simp] theorem State.setPc_status (w : Word) : (s.setPc w).status = s.status := rfl
@[simp] theorem State.setPc_fault (w : Word) : (s.setPc w).fault = s.fault := rfl
@[simp] theorem State.setPc_rndIn (w : Word) : (s.setPc w).rndIn = s.rndIn := rfl
@[simp] theorem State.setPc_rndCount (w : Word) : (s.setPc w).rndCount = s.rndCount := rfl
@[simp] theorem State.setPc_getV (w : Word) (r : Nibble) : (s.setPc w).getV r = s.getV r := rfl

@[simp] theorem State.setMem_mem (m : Memory) : (s.setMem m).mem = m := rfl
@[simp] theorem State.setMem_v (m : Memory) : (s.setMem m).v = s.v := rfl
@[simp] theorem State.setMem_i (m : Memory) : (s.setMem m).i = s.i := rfl
@[simp] theorem State.setMem_pc (m : Memory) : (s.setMem m).pc = s.pc := rfl
@[simp] theorem State.setMem_sp (m : Memory) : (s.setMem m).sp = s.sp := rfl
@[simp] theorem State.setMem_stack (m : Memory) : (s.setMem m).stack = s.stack := rfl
@[simp] theorem State.setMem_dt (m : Memory) : (s.setMem m).dt = s.dt := rfl
@[simp] theorem State.setMem_st (m : Memory) : (s.setMem m).st = s.st := rfl
@[simp] theorem State.setMem_k (m : Memory) : (s.setMem m).k = s.k := rfl
@[simp] theorem State.setMem_fb (m : Memory) : (s.setMem m).fb = s.fb := rfl
@[simp] theorem State.setMem_status (m : Memory) : (s.setMem m).status = s.status := rfl
@[simp] theorem State.setMem_fault (m : Memory) : (s.setMem m).fault = s.fault := rfl
@[simp] theorem State.setMem_rndIn (m : Memory) : (s.setMem m).rndIn = s.rndIn := rfl
@[simp] theorem State.setMem_rndCount (m : Memory) : (s.setMem m).rndCount = s.rndCount := rfl
@[simp] theorem State.setMem_getV (m : Memory) (r : Nibble) : (s.setMem m).getV r = s.getV r := rfl

@[simp] theorem State.setFb_mem (f : Vector FbRow 32) : (s.setFb f).mem = s.mem := rfl
@[simp] theorem State.setFb_v (f : Vector FbRow 32) : (s.setFb f).v = s.v := rfl
@[simp] theorem State.setFb_i (f : Vector FbRow 32) : (s.setFb f).i = s.i := rfl
@[simp] theorem State.setFb_pc (f : Vector FbRow 32) : (s.setFb f).pc = s.pc := rfl
@[simp] theorem State.setFb_sp (f : Vector FbRow 32) : (s.setFb f).sp = s.sp := rfl
@[simp] theorem State.setFb_stack (f : Vector FbRow 32) : (s.setFb f).stack = s.stack := rfl
@[simp] theorem State.setFb_dt (f : Vector FbRow 32) : (s.setFb f).dt = s.dt := rfl
@[simp] theorem State.setFb_st (f : Vector FbRow 32) : (s.setFb f).st = s.st := rfl
@[simp] theorem State.setFb_k (f : Vector FbRow 32) : (s.setFb f).k = s.k := rfl
@[simp] theorem State.setFb_fb (f : Vector FbRow 32) : (s.setFb f).fb = f := rfl
@[simp] theorem State.setFb_status (f : Vector FbRow 32) : (s.setFb f).status = s.status := rfl
@[simp] theorem State.setFb_fault (f : Vector FbRow 32) : (s.setFb f).fault = s.fault := rfl
@[simp] theorem State.setFb_rndIn (f : Vector FbRow 32) : (s.setFb f).rndIn = s.rndIn := rfl
@[simp] theorem State.setFb_rndCount (f : Vector FbRow 32) : (s.setFb f).rndCount = s.rndCount := rfl
@[simp] theorem State.setFb_getV (f : Vector FbRow 32) (r : Nibble) : (s.setFb f).getV r = s.getV r := rfl

@[simp] theorem State.advance_mem : (s.advance).mem = s.mem := rfl
@[simp] theorem State.advance_v : (s.advance).v = s.v := rfl
@[simp] theorem State.advance_i : (s.advance).i = s.i := rfl
@[simp] theorem State.advance_pc : (s.advance).pc = s.pc + 2#16 := rfl
@[simp] theorem State.advance_sp : (s.advance).sp = s.sp := rfl
@[simp] theorem State.advance_stack : (s.advance).stack = s.stack := rfl
@[simp] theorem State.advance_dt : (s.advance).dt = s.dt := rfl
@[simp] theorem State.advance_st : (s.advance).st = s.st := rfl
@[simp] theorem State.advance_k : (s.advance).k = s.k := rfl
@[simp] theorem State.advance_fb : (s.advance).fb = s.fb := rfl
@[simp] theorem State.advance_status : (s.advance).status = s.status := rfl
@[simp] theorem State.advance_fault : (s.advance).fault = s.fault := rfl
@[simp] theorem State.advance_rndIn : (s.advance).rndIn = s.rndIn := rfl
@[simp] theorem State.advance_rndCount : (s.advance).rndCount = s.rndCount := rfl
@[simp] theorem State.advance_getV (r : Nibble) : (s.advance).getV r = s.getV r := rfl

@[simp] theorem State.skipIf_mem (c : Bool) : (s.skipIf c).mem = s.mem := rfl
@[simp] theorem State.skipIf_v (c : Bool) : (s.skipIf c).v = s.v := rfl
@[simp] theorem State.skipIf_i (c : Bool) : (s.skipIf c).i = s.i := rfl
@[simp] theorem State.skipIf_pc (c : Bool) : (s.skipIf c).pc = if c then s.pc + 2#16 + 2#16 else s.pc + 2#16 := rfl
@[simp] theorem State.skipIf_sp (c : Bool) : (s.skipIf c).sp = s.sp := rfl
@[simp] theorem State.skipIf_stack (c : Bool) : (s.skipIf c).stack = s.stack := rfl
@[simp] theorem State.skipIf_dt (c : Bool) : (s.skipIf c).dt = s.dt := rfl
@[simp] theorem State.skipIf_st (c : Bool) : (s.skipIf c).st = s.st := rfl
@[simp] theorem State.skipIf_k (c : Bool) : (s.skipIf c).k = s.k := rfl
@[simp] theorem State.skipIf_fb (c : Bool) : (s.skipIf c).fb = s.fb := rfl
@[simp] theorem State.skipIf_status (c : Bool) : (s.skipIf c).status = s.status := rfl
@[simp] theorem State.skipIf_fault (c : Bool) : (s.skipIf c).fault = s.fault := rfl
@[simp] theorem State.skipIf_rndIn (c : Bool) : (s.skipIf c).rndIn = s.rndIn := rfl
@[simp] theorem State.skipIf_rndCount (c : Bool) : (s.skipIf c).rndCount = s.rndCount := rfl
@[simp] theorem State.skipIf_getV (c : Bool) (r : Nibble) : (s.skipIf c).getV r = s.getV r := rfl

@[simp] theorem State.loadRegs_mem (x : Nibble) : (s.loadRegs x).mem = s.mem := by dsimp only [State.loadRegs]
@[simp] theorem State.loadRegs_i (x : Nibble) : (s.loadRegs x).i = s.i := by dsimp only [State.loadRegs]
@[simp] theorem State.loadRegs_pc (x : Nibble) : (s.loadRegs x).pc = s.pc := by dsimp only [State.loadRegs]
@[simp] theorem State.loadRegs_sp (x : Nibble) : (s.loadRegs x).sp = s.sp := by dsimp only [State.loadRegs]
@[simp] theorem State.loadRegs_stack (x : Nibble) : (s.loadRegs x).stack = s.stack := by dsimp only [State.loadRegs]
@[simp] theorem State.loadRegs_dt (x : Nibble) : (s.loadRegs x).dt = s.dt := by dsimp only [State.loadRegs]
@[simp] theorem State.loadRegs_st (x : Nibble) : (s.loadRegs x).st = s.st := by dsimp only [State.loadRegs]
@[simp] theorem State.loadRegs_k (x : Nibble) : (s.loadRegs x).k = s.k := by dsimp only [State.loadRegs]
@[simp] theorem State.loadRegs_fb (x : Nibble) : (s.loadRegs x).fb = s.fb := by dsimp only [State.loadRegs]
@[simp] theorem State.loadRegs_status (x : Nibble) : (s.loadRegs x).status = s.status := by dsimp only [State.loadRegs]
@[simp] theorem State.loadRegs_fault (x : Nibble) : (s.loadRegs x).fault = s.fault := by dsimp only [State.loadRegs]
@[simp] theorem State.loadRegs_rndIn (x : Nibble) : (s.loadRegs x).rndIn = s.rndIn := by dsimp only [State.loadRegs]
@[simp] theorem State.loadRegs_rndCount (x : Nibble) : (s.loadRegs x).rndCount = s.rndCount := by dsimp only [State.loadRegs]

@[simp] theorem State.halt_mem (c : FaultCause) (o n : Word) : (s.halt c o n).mem = s.mem := rfl
@[simp] theorem State.halt_v (c : FaultCause) (o n : Word) : (s.halt c o n).v = s.v := rfl
@[simp] theorem State.halt_i (c : FaultCause) (o n : Word) : (s.halt c o n).i = s.i := rfl
@[simp] theorem State.halt_pc (c : FaultCause) (o n : Word) : (s.halt c o n).pc = s.pc := rfl
@[simp] theorem State.halt_sp (c : FaultCause) (o n : Word) : (s.halt c o n).sp = s.sp := rfl
@[simp] theorem State.halt_stack (c : FaultCause) (o n : Word) : (s.halt c o n).stack = s.stack := rfl
@[simp] theorem State.halt_dt (c : FaultCause) (o n : Word) : (s.halt c o n).dt = s.dt := rfl
@[simp] theorem State.halt_st (c : FaultCause) (o n : Word) : (s.halt c o n).st = s.st := rfl
@[simp] theorem State.halt_k (c : FaultCause) (o n : Word) : (s.halt c o n).k = s.k := rfl
@[simp] theorem State.halt_fb (c : FaultCause) (o n : Word) : (s.halt c o n).fb = s.fb := rfl
@[simp] theorem State.halt_status (c : FaultCause) (o n : Word) : (s.halt c o n).status = .halted := rfl
@[simp] theorem State.halt_fault (c : FaultCause) (o n : Word) : (s.halt c o n).fault = ⟨c, o, s.pc, n⟩ := rfl
@[simp] theorem State.halt_rndIn (c : FaultCause) (o n : Word) : (s.halt c o n).rndIn = s.rndIn := rfl
@[simp] theorem State.halt_rndCount (c : FaultCause) (o n : Word) : (s.halt c o n).rndCount = s.rndCount := rfl
@[simp] theorem State.halt_getV (c : FaultCause) (o n : Word) (r : Nibble) : (s.halt c o n).getV r = s.getV r := rfl

/-! The draw's bookkeeping touches the model's two own fields only. -/

@[simp] theorem State.takeRnd_mem : s.takeRnd.mem = s.mem := by
  unfold State.takeRnd; split <;> rfl
@[simp] theorem State.takeRnd_v : s.takeRnd.v = s.v := by
  unfold State.takeRnd; split <;> rfl
@[simp] theorem State.takeRnd_i : s.takeRnd.i = s.i := by
  unfold State.takeRnd; split <;> rfl
@[simp] theorem State.takeRnd_pc : s.takeRnd.pc = s.pc := by
  unfold State.takeRnd; split <;> rfl
@[simp] theorem State.takeRnd_sp : s.takeRnd.sp = s.sp := by
  unfold State.takeRnd; split <;> rfl
@[simp] theorem State.takeRnd_stack : s.takeRnd.stack = s.stack := by
  unfold State.takeRnd; split <;> rfl
@[simp] theorem State.takeRnd_dt : s.takeRnd.dt = s.dt := by
  unfold State.takeRnd; split <;> rfl
@[simp] theorem State.takeRnd_st : s.takeRnd.st = s.st := by
  unfold State.takeRnd; split <;> rfl
@[simp] theorem State.takeRnd_k : s.takeRnd.k = s.k := by
  unfold State.takeRnd; split <;> rfl
@[simp] theorem State.takeRnd_fb : s.takeRnd.fb = s.fb := by
  unfold State.takeRnd; split <;> rfl
@[simp] theorem State.takeRnd_status : s.takeRnd.status = s.status := by
  unfold State.takeRnd; split <;> rfl
@[simp] theorem State.takeRnd_fault : s.takeRnd.fault = s.fault := by
  unfold State.takeRnd; split <;> rfl
@[simp] theorem State.takeRnd_getV (r : Nibble) : s.takeRnd.getV r = s.getV r := by simp [State.getV]

/-! Registers. -/

@[simp] theorem State.getV_setV_same (x : Nibble) (b : Byte) : (s.setV x b).getV x = b := by
  simp [State.getV, State.setV]

theorem State.getV_setV_ne {x r : Nibble} (b : Byte) (h : r ≠ x) : (s.setV x b).getV r = s.getV r := by
  have : x.toNat ≠ r.toNat := fun e => h (BitVec.eq_of_toNat_eq e.symm)
  simp [State.getV, State.setV, this]

theorem State.getV_setV (x r : Nibble) (b : Byte) : (s.setV x b).getV r = if r = x then b else s.getV r := by
  by_cases h : r = x
  · subst h; simp
  · simp [h, s.getV_setV_ne b h]

theorem State.getV_loadRegs (x r : Nibble) :
    (s.loadRegs x).getV r = if r.toNat ≤ x.toNat then s.mem.read (s.dataAddr r.toNat) else s.getV r := by
  simp [State.getV, State.loadRegs, State.loadedRegs]

end Sys2Proof.Machine
end

