-- ==== Sys2Proof/Laws/Ops.lean ====
section
/-! SUPPORT. One lemma per shared operation that says everything it can do. -/

namespace Sys2Proof.Machine

variable (s : State)

/-! ## Stack -/

theorem State.push_eq_some {w : Word} {t : State} :
    s.push w = some t ↔ ∃ h : s.sp.toNat < 16, t = (s.setStack (s.stack.set s.sp.toNat w h)).setSp (s.sp - 1#8) := by
  unfold State.push
  split
  · next h => simp [h, eq_comm]
  · next h => simp [h]

theorem State.push_eq_none {w : Word} : s.push w = none ↔ 16 ≤ s.sp.toNat := by
  unfold State.push
  split <;> simp <;> omega

theorem State.pop_eq_some {w : Word} {t : State} :
    s.pop = some (w, t) ↔
      ∃ h : (s.sp + 1#8).toNat < 16, w = s.stack[(s.sp + 1#8).toNat]'h ∧ t = s.setSp (s.sp + 1#8) := by
  unfold State.pop
  split
  · next h =>
    constructor
    · intro e
      cases e
      exact ⟨h, rfl, rfl⟩
    · rintro ⟨_, rfl, rfl⟩
      rfl
  · next h =>
    constructor
    · intro e
      cases e
    · rintro ⟨h', -, -⟩
      exact absurd h' h

theorem State.pop_eq_none : s.pop = none ↔ 16 ≤ (s.sp + 1#8).toNat := by
  unfold State.pop
  split
  · next h => simp only [reduceCtorEq, false_iff]; omega
  · next h => simp only [true_iff]; omega

/-! ## Keys -/

theorem State.firstKey_eq_some {k : Fin 16} :
    s.firstKey = some k ↔ s.k[k.val] = true ∧ ∀ j : Fin 16, j < k → s.k[j.val] = false := by
  unfold State.firstKey
  rw [List.find?_eq_some_iff_append]
  constructor
  · rintro ⟨hk, as, bs, happ, hall⟩
    refine ⟨hk, fun j hj => ?_⟩
    have hmem : j ∈ as := by
      have hj' : j ∈ List.finRange 16 := List.mem_finRange j
      have hsorted := List.pairwise_lt_finRange 16
      rw [happ] at hj' hsorted
      rcases List.mem_append.mp hj' with h | h
      · exact h
      · rcases List.mem_cons.mp h with rfl | h
        · exact absurd hj (lt_irrefl _)
        · have := (List.pairwise_cons.mp (List.pairwise_append.mp hsorted).2.1).1 j h
          exact absurd hj (not_lt.mpr this.le)
    simpa using hall j hmem
  · rintro ⟨hk, hlow⟩
    refine ⟨hk, (List.finRange 16).take k, (List.finRange 16).drop (k + 1), ?_, ?_⟩
    · conv_lhs => rw [← List.take_append_drop k.val (List.finRange 16)]
      rw [List.drop_eq_getElem_cons (by simp)]
      simp
    · intro j hj
      obtain ⟨n, hn, rfl⟩ := List.mem_take_iff_getElem.mp hj
      have hlt : n < k.val := by simp at hn; exact hn
      simpa using hlow ⟨n, hlt.trans k.isLt⟩ hlt

theorem State.firstKey_eq_none : s.firstKey = none ↔ ∀ j : Fin 16, s.k[j.val] = false := by
  simp [State.firstKey]

theorem State.keyDown_keyWrite (k j : Nibble) (v : Bool) :
    (keyWrite k v s).keyDown j = if j = k then v else s.keyDown j := by
  by_cases h : j = k
  · subst h; simp [State.keyDown, keyWrite]
  · have : k.toNat ≠ j.toNat := fun e => h (BitVec.eq_of_toNat_eq e.symm)
    simp [State.keyDown, keyWrite, this, h]

/-! ## Data range and fault entry -/

theorem State.dataFault_eq_none (count : Nat) :
    s.dataFault count = none ↔ count = 0 ∨ s.i.toNat + count - 1 ≤ 0xFFF := by
  unfold State.dataFault State.dataAddr Config.memSize
  split
  · simp [*]
  · split <;> simp [*] <;> omega

theorem State.dataFault_eq_some (count a : Nat) :
    s.dataFault count = some a ↔ count ≠ 0 ∧ s.i.toNat + count - 1 > 0xFFF ∧ a = max s.i.toNat 0x1000 := by
  unfold State.dataFault State.dataAddr Config.memSize
  split
  · simp [*]
  · split
    · simp [*, eq_comm]; omega
    · simp [*]; omega

/-- An instruction with data addresses raises `DataOutOfRange` or goes to the state it was given. -/
theorem guardData_cases (i : Instr) (count : Nat) (s s' : State) :
    (s.dataFault count = none ∧ guardData i count s s' = .next s') ∨
    (∃ a, s.dataFault count = some a ∧
      guardData i count s s' = .next (s.halt .dataOutOfRange (encode i) (BitVec.ofNat 16 a))) := by
  unfold guardData raise
  cases h : s.dataFault count with
  | none => exact .inl ⟨rfl, rfl⟩
  | some a => exact .inr ⟨a, rfl, rfl⟩

/-! ## Registers to memory and back -/

theorem State.regsUpTo_length (x : Nibble) : (s.regsUpTo x).length = x.toNat + 1 := by
  have := x.isLt
  simp [State.regsUpTo]; omega

theorem State.regsUpTo_getElem? (x : Nibble) (j : Nat) :
    (s.regsUpTo x)[j]? = if h : j ≤ x.toNat then some (s.v[j]'(by have := x.isLt; omega)) else none := by
  have hx := x.isLt
  unfold State.regsUpTo
  split
  · next h =>
    rw [List.getElem?_take_of_lt (by omega), List.getElem?_eq_getElem (by simp; omega)]
    simp
  · next h => simp; omega

theorem State.bcd_toNat (b : Byte) :
    (BitVec.ofNat 8 (b.toNat / 100)).toNat = b.toNat / 100 ∧
    (BitVec.ofNat 8 (b.toNat / 10 % 10)).toNat = b.toNat / 10 % 10 ∧
    (BitVec.ofNat 8 (b.toNat % 10)).toNat = b.toNat % 10 := by
  have := b.isLt
  simp only [BitVec.toNat_ofNat]
  omega

/-! ## Sprites -/

/-- Pixel `c` of a sprite byte, bit `7 - c`, lands on column `x0 + c`; columns above 63 do not exist. -/
theorem spriteRow_getLsbD (b : Byte) (x0 col : Nat) (h : col < 64) :
    (spriteRow b x0).getLsbD col = (decide (x0 ≤ col ∧ col - x0 < 8) && b.getLsbD (7 - (col - x0))) := by
  unfold spriteRow
  rw [BitVec.getLsbD_shiftLeft, BitVec.getLsbD_setWidth, BitVec.getLsbD_reverse, BitVec.getMsbD_eq_getLsbD]
  by_cases h1 : x0 ≤ col
  · have h2 : ¬ col < x0 := by omega
    have h3 : col - x0 < 64 := by omega
    simp [h, h1, h2, h3]
  · have h2 : col < x0 := by omega
    simp [h1, h2]

theorem State.spriteMask_getLsbD (x0 y0 n row col : Nat) (h : col < 64) :
    (s.spriteMask x0 y0 n row).getLsbD col =
      (decide (y0 ≤ row ∧ row < y0 + n) && decide (x0 ≤ col ∧ col - x0 < 8) &&
        (s.mem.read (s.dataAddr (row - y0))).getLsbD (7 - (col - x0))) := by
  unfold State.spriteMask
  split
  · next hr => simp [hr, spriteRow_getLsbD _ _ _ h]
  · next hr => simp [hr]

theorem State.xorSprite_getElem (x0 y0 n : Nat) (row : Fin 32) :
    (s.xorSprite x0 y0 n)[row.val] = s.fb[row.val] ^^^ s.spriteMask x0 y0 n row.val := by
  simp [State.xorSprite]

/-- A cell after a sprite was XORed in. -/
theorem State.cell_setFb_xorSprite (x0 y0 n : Nat) (row : Fin 32) (col : Fin 64) :
    (s.setFb (s.xorSprite x0 y0 n)).cell row col =
      (s.cell row col ^^ (s.spriteMask x0 y0 n row.val).getLsbD col.val) := by
  simp [State.cell, State.xorSprite_getElem]

/-- A collision: some cell of the mask was set. -/
theorem State.collides_iff (x0 y0 n : Nat) :
    s.collides x0 y0 n = true ↔ ∃ (row : Fin 32) (col : Fin 64),
      s.cell row col = true ∧ (s.spriteMask x0 y0 n row.val).getLsbD col.val = true := by
  unfold State.collides State.cell
  rw [List.any_eq_true]
  constructor
  · rintro ⟨row, -, h⟩
    have h : s.fb[row.val] &&& s.spriteMask x0 y0 n row.val ≠ 0#64 := by simpa using h
    by_contra hno
    push Not at hno
    refine h (BitVec.eq_of_getLsbD_eq fun i hi => ?_)
    have := hno row ⟨i, hi⟩
    simp only [BitVec.getLsbD_and, BitVec.getLsbD_zero]
    cases hc : s.fb[row.val].getLsbD i
    · rfl
    · simpa using this hc
  · rintro ⟨row, col, h1, h2⟩
    refine ⟨row, List.mem_finRange row, ?_⟩
    have : s.fb[row.val] &&& s.spriteMask x0 y0 n row.val ≠ 0#64 := by
      intro h0
      have := congrArg (fun v : FbRow => v.getLsbD col.val) h0
      simp only [BitVec.getLsbD_and, h1, h2, BitVec.getLsbD_zero] at this
      cases this
    simpa using this

/-- `FbRead` addresses the display row by row. -/
theorem fbRead_eq_cell (i : Fin 2048) (row : Fin 32) (col : Fin 64) (h : i.val = 64 * row.val + col.val) :
    fbRead i s = s.cell row col := by
  have hc := col.isLt
  have h1 : i.val / 64 = row.val := by omega
  have h2 : i.val % 64 = col.val := by omega
  simp [fbRead, State.cell, h1, h2]

/-! ## Timers -/

theorem countDown_toNat (b : Byte) : (countDown b).toNat = b.toNat - 1 := by
  unfold countDown
  split
  · next h => simp [h]
  · next h =>
    have : b.toNat ≠ 0 := fun h0 => h (BitVec.eq_of_toNat_eq (by simpa using h0))
    have hb := b.isLt
    simp [BitVec.toNat_sub]
    omega

/-! ## Schedules and cycles -/

@[simp] theorem runOperations_nil : runOperations [] s = .next s := rfl

/-- The first operation of a schedule that answers is followed by the rest. -/
theorem runOperations_cons_next {op : Operation} {ops : List Operation} {t : State} (h : operate op s = .next t) :
    runOperations (op :: ops) s = runOperations ops t := by
  simp [runOperations, h]

/-- A cycle that holds a `Reset`: the `KeyWrite` with it acts on what it leaves, and nothing else acts. -/
theorem cycle_reset {r : Requests} {image : List Byte} {t : State} (hr : r.reset = some image)
    (h : resetImage image = .next t) :
    (cycle r s).1 = .next (r.keyWrite.elim t fun p => keyWrite p.1 p.2 t) := by
  unfold cycle Requests.order
  rw [hr]
  cases r.keyWrite <;> simp [runOperations, operate, h]

/-- A cycle without `Reset`: `KeyWrite`, then `Step`, then `Tick`, each where it was requested. -/
theorem cycle_no_reset {r : Requests} (hr : r.reset = none) :
    (cycle r s).1 =
      runOperations ((r.step.elim [] fun rnd => [.step rnd]) ++ if r.tick then [.tick] else [])
        (r.keyWrite.elim s fun p => keyWrite p.1 p.2 s) := by
  unfold cycle Requests.order
  rw [hr]
  cases r.keyWrite <;> cases r.step <;> rfl

/-! ## Fetch -/

theorem State.fetch_eq_ok {w : Word} :
    s.fetch = .ok w ↔
      s.pc.toNat ≤ 0xFFE ∧ w = wordOfBytes (s.mem.read s.pc.toNat) (s.mem.read (s.pc.toNat + 1)) := by
  unfold State.fetch State.fetchRead Config.memSize
  by_cases h1 : s.pc.toNat ≥ 0x1000
  · simp [h1]; omega
  · by_cases h2 : s.pc.toNat + 1 ≥ 0x1000
    · simp [h1, h2]; omega
    · simp [h1, h2, eq_comm]; omega

theorem State.fetch_eq_error {a : Nat} :
    s.fetch = .error a ↔ s.pc.toNat > 0xFFE ∧ a = max s.pc.toNat 0x1000 := by
  unfold State.fetch State.fetchRead Config.memSize
  by_cases h1 : s.pc.toNat ≥ 0x1000
  · simp [h1]; omega
  · by_cases h2 : s.pc.toNat + 1 ≥ 0x1000
    · simp [h1, h2]; omega
    · simp [h1, h2]; omega

/-- Everything one step can do. -/
theorem step_cases :
    (s.status = .halted ∧ step s = .next s) ∨
    (s.status = .running ∧ s.pc.toNat > 0xFFE ∧
      step s = .next (s.halt .fetchOutOfRange 0x0000#16 (BitVec.ofNat 16 (max s.pc.toNat 0x1000)))) ∨
    (∃ w e, s.status = .running ∧ s.fetch = .ok w ∧ decodeWord w = .error e ∧
      step s = .next (s.halt .unrecognizedOpcode w 0x0000#16)) ∨
    (∃ w i, s.status = .running ∧ s.fetch = .ok w ∧ decodeWord w = .ok i ∧ step s = exec i s) := by
  unfold step
  cases hs : s.status with
  | halted => exact .inl ⟨rfl, rfl⟩
  | running =>
    cases hf : s.fetch with
    | error a =>
      obtain ⟨hpc, rfl⟩ := s.fetch_eq_error.mp hf
      exact .inr (.inl ⟨rfl, hpc, rfl⟩)
    | ok w =>
      cases hd : decodeWord w with
      | error e => exact .inr (.inr (.inl ⟨w, e, rfl, rfl, hd, by simp [hd, State.decodeFault]⟩))
      | ok i => exact .inr (.inr (.inr ⟨w, i, rfl, rfl, hd, by simp [hd]⟩))

end Sys2Proof.Machine
end

