-- ==== Sys2Proof/Laws/Exec.lean ====
section
/-! SUPPORT. What executing one instruction can do, said once over all instructions. -/

namespace Sys2Proof.Machine

/-! Dispatch, one equation per instruction. -/

@[simp] theorem exec_cls (s : State) : exec .cls s = execCls s := rfl
@[simp] theorem exec_ret (s : State) : exec .ret s = execRet s := rfl
@[simp] theorem exec_jpNnn (nnn : Addr12) (s : State) : exec (.jpNnn nnn) s = execJpNnn nnn s := rfl
@[simp] theorem exec_callNnn (nnn : Addr12) (s : State) : exec (.callNnn nnn) s = execCallNnn nnn s := rfl
@[simp] theorem exec_seVxNn (x : Nibble) (nn : Byte) (s : State) : exec (.seVxNn x nn) s = execSeVxNn x nn s := rfl
@[simp] theorem exec_sneVxNn (x : Nibble) (nn : Byte) (s : State) : exec (.sneVxNn x nn) s = execSneVxNn x nn s := rfl
@[simp] theorem exec_seVxVy (x y : Nibble) (s : State) : exec (.seVxVy x y) s = execSeVxVy x y s := rfl
@[simp] theorem exec_ldVxNn (x : Nibble) (nn : Byte) (s : State) : exec (.ldVxNn x nn) s = execLdVxNn x nn s := rfl
@[simp] theorem exec_addVxNn (x : Nibble) (nn : Byte) (s : State) : exec (.addVxNn x nn) s = execAddVxNn x nn s := rfl
@[simp] theorem exec_ldVxVy (x y : Nibble) (s : State) : exec (.ldVxVy x y) s = execLdVxVy x y s := rfl
@[simp] theorem exec_orVxVy (x y : Nibble) (s : State) : exec (.orVxVy x y) s = execOrVxVy x y s := rfl
@[simp] theorem exec_andVxVy (x y : Nibble) (s : State) : exec (.andVxVy x y) s = execAndVxVy x y s := rfl
@[simp] theorem exec_xorVxVy (x y : Nibble) (s : State) : exec (.xorVxVy x y) s = execXorVxVy x y s := rfl
@[simp] theorem exec_addVxVy (x y : Nibble) (s : State) : exec (.addVxVy x y) s = execAddVxVy x y s := rfl
@[simp] theorem exec_subVxVy (x y : Nibble) (s : State) : exec (.subVxVy x y) s = execSubVxVy x y s := rfl
@[simp] theorem exec_shrVx (x y : Nibble) (s : State) : exec (.shrVx x y) s = execShrVx x y s := rfl
@[simp] theorem exec_subnVxVy (x y : Nibble) (s : State) : exec (.subnVxVy x y) s = execSubnVxVy x y s := rfl
@[simp] theorem exec_shlVx (x y : Nibble) (s : State) : exec (.shlVx x y) s = execShlVx x y s := rfl
@[simp] theorem exec_sneVxVy (x y : Nibble) (s : State) : exec (.sneVxVy x y) s = execSneVxVy x y s := rfl
@[simp] theorem exec_ldINnn (nnn : Addr12) (s : State) : exec (.ldINnn nnn) s = execLdINnn nnn s := rfl
@[simp] theorem exec_jpV0Nnn (nnn : Addr12) (s : State) : exec (.jpV0Nnn nnn) s = execJpV0Nnn nnn s := rfl
@[simp] theorem exec_rndVxNn (x : Nibble) (nn : Byte) (s : State) : exec (.rndVxNn x nn) s = execRndVxNn x nn s := rfl
@[simp] theorem exec_drwVxVyN (x y n : Nibble) (s : State) : exec (.drwVxVyN x y n) s = execDrwVxVyN x y n s := rfl
@[simp] theorem exec_skpVx (x : Nibble) (s : State) : exec (.skpVx x) s = execSkpVx x s := rfl
@[simp] theorem exec_sknpVx (x : Nibble) (s : State) : exec (.sknpVx x) s = execSknpVx x s := rfl
@[simp] theorem exec_ldVxDt (x : Nibble) (s : State) : exec (.ldVxDt x) s = execLdVxDt x s := rfl
@[simp] theorem exec_ldVxK (x : Nibble) (s : State) : exec (.ldVxK x) s = execLdVxK x s := rfl
@[simp] theorem exec_ldDtVx (x : Nibble) (s : State) : exec (.ldDtVx x) s = execLdDtVx x s := rfl
@[simp] theorem exec_ldStVx (x : Nibble) (s : State) : exec (.ldStVx x) s = execLdStVx x s := rfl
@[simp] theorem exec_addIVx (x : Nibble) (s : State) : exec (.addIVx x) s = execAddIVx x s := rfl
@[simp] theorem exec_ldFVx (x : Nibble) (s : State) : exec (.ldFVx x) s = execLdFVx x s := rfl
@[simp] theorem exec_ldBVx (x : Nibble) (s : State) : exec (.ldBVx x) s = execLdBVx x s := rfl
@[simp] theorem exec_ldMemVx (x : Nibble) (s : State) : exec (.ldMemVx x) s = execLdMemVx x s := rfl
@[simp] theorem exec_ldVxMem (x : Nibble) (s : State) : exec (.ldVxMem x) s = execLdVxMem x s := rfl

/-- The three ways an instruction ends: it halts the machine by fault entry and does nothing else; it completes and keeps
`STATUS` and `FAULT`; it stops for want of a stack entry (log 3). -/
def ExecEnds (i : Instr) (s : State) : Prop :=
  (∃ c n, exec i s = .next (s.halt c (encode i) n) ∧ c ≠ .none ∧ c ≠ .fetchOutOfRange) ∨
  (∃ t, exec i s = .next t ∧ t.status = s.status ∧ t.fault = s.fault) ∨
  (exec i s = .fault (.noStackEntry s.sp) ∧ 16 ≤ s.sp.toNat ∧ s.sp ≠ 0xFF#8)

theorem ExecEnds.completes {i : Instr} {s t : State} (h : exec i s = .next t) (hs : t.status = s.status)
    (hf : t.fault = s.fault) : ExecEnds i s := .inr (.inl ⟨t, h, hs, hf⟩)

theorem ExecEnds.guarded {i : Instr} {count : Nat} {s t : State} (h : exec i s = guardData i count s t)
    (hs : t.status = s.status) (hf : t.fault = s.fault) : ExecEnds i s := by
  rcases guardData_cases i count s t with ⟨-, hn⟩ | ⟨a, -, hn⟩
  · exact .inr (.inl ⟨t, h.trans hn, hs, hf⟩)
  · exact .inl ⟨_, _, h.trans hn, by simp, by simp⟩

theorem ExecEnds.keySkip {i : Instr} {x : Nibble} {b : Bool} {s : State} (h : exec i s = skipOnKey i x b s) :
    ExecEnds i s := by
  unfold skipOnKey at h
  split at h
  · exact .inl ⟨_, _, h, by simp, by simp⟩
  · exact .completes h rfl rfl

theorem execEnds_ret (s : State) : ExecEnds .ret s := by
  unfold ExecEnds
  rw [exec_ret, execRet]
  by_cases h0 : s.stackEmpty = true
  · exact .inl ⟨_, _, by rw [if_pos h0]; rfl, by simp, by simp⟩
  · rw [if_neg h0]
    cases hp : s.pop with
    | none =>
      have := s.pop_eq_none.mp hp
      refine .inr (.inr ⟨rfl, ?_, ?_⟩)
      · simp only [State.stackEmpty, beq_iff_eq] at h0
        have h1 : s.sp.toNat ≠ 15 := fun e => h0 (BitVec.eq_of_toNat_eq (by simpa using e))
        have hlt := s.sp.isLt
        simp only [BitVec.toNat_add, BitVec.toNat_ofNat] at this
        omega
      · intro e
        rw [e] at this
        simp at this
    | some p =>
      obtain ⟨w, t⟩ := p
      obtain ⟨-, -, rfl⟩ := s.pop_eq_some.mp hp
      exact .inr (.inl ⟨_, rfl, rfl, rfl⟩)

theorem execEnds_call (nnn : Addr12) (s : State) : ExecEnds (.callNnn nnn) s := by
  unfold ExecEnds
  rw [exec_callNnn, execCallNnn]
  by_cases h0 : s.stackFull = true
  · exact .inl ⟨_, _, by rw [if_pos h0]; rfl, by simp, by simp⟩
  · rw [if_neg h0]
    cases hp : s.push s.npc with
    | none => exact .inr (.inr ⟨rfl, s.push_eq_none.mp hp, by simpa [State.stackFull] using h0⟩)
    | some t =>
      obtain ⟨-, rfl⟩ := s.push_eq_some.mp hp
      exact .inr (.inl ⟨_, rfl, rfl, rfl⟩)

/-- Every instruction ends in one of the three ways. -/
theorem exec_cases (i : Instr) (s : State) : ExecEnds i s := by
  cases i with
  | cls => exact .completes rfl rfl rfl
  | ret => exact execEnds_ret s
  | callNnn nnn => exact execEnds_call nnn s
  | drwVxVyN x y n => exact .guarded rfl (by simp) (by simp)
  | skpVx x => exact .keySkip rfl
  | sknpVx x => exact .keySkip rfl
  | ldBVx x => exact .guarded rfl (by simp) (by simp)
  | ldMemVx x => exact .guarded rfl (by simp) (by simp)
  | ldVxMem x => exact .guarded rfl (by simp) (by simp)
  | rndVxNn x nn => exact .completes rfl (by simp [State.loadV]) (by simp [State.loadV])
  | ldVxK x =>
    unfold ExecEnds
    rw [exec_ldVxK, execLdVxK]
    cases s.firstKey with
    | none => exact .inr (.inl ⟨_, rfl, rfl, rfl⟩)
    | some k => exact .inr (.inl ⟨_, rfl, rfl, rfl⟩)
  | jpNnn _ => exact .completes rfl rfl rfl
  | seVxNn _ _ => exact .completes rfl rfl rfl
  | sneVxNn _ _ => exact .completes rfl rfl rfl
  | seVxVy _ _ => exact .completes rfl rfl rfl
  | ldVxNn _ _ => exact .completes rfl rfl rfl
  | addVxNn _ _ => exact .completes rfl rfl rfl
  | ldVxVy _ _ => exact .completes rfl rfl rfl
  | orVxVy _ _ => exact .completes rfl rfl rfl
  | andVxVy _ _ => exact .completes rfl rfl rfl
  | xorVxVy _ _ => exact .completes rfl rfl rfl
  | addVxVy _ _ => exact .completes rfl rfl rfl
  | subVxVy _ _ => exact .completes rfl rfl rfl
  | shrVx _ _ => exact .completes rfl rfl rfl
  | subnVxVy _ _ => exact .completes rfl rfl rfl
  | shlVx _ _ => exact .completes rfl rfl rfl
  | sneVxVy _ _ => exact .completes rfl rfl rfl
  | ldINnn _ => exact .completes rfl rfl rfl
  | jpV0Nnn _ => exact .completes rfl rfl rfl
  | ldVxDt _ => exact .completes rfl rfl rfl
  | ldDtVx _ => exact .completes rfl rfl rfl
  | ldStVx _ => exact .completes rfl rfl rfl
  | addIVx _ => exact .completes rfl rfl rfl
  | ldFVx _ => exact .completes rfl rfl rfl

end Sys2Proof.Machine
end

