-- ==== Sys2Proof/Laws/PerInstr.lean ====
section
/-! SUPPORT. A statement made for every instruction, one lemma per constructor: an instruction's word is selected by the
instruction's own row of the opcode map (spec 30_encoding.md R65). -/

namespace Sys2Proof.Laws.EncodingFitsRow

/-- The word an instruction encodes to has the fixed bits of its row. -/
def Statement (i : Instr) : Prop := i.row.selects (encode i) = true

theorem cls : Statement .cls := rfl
theorem ret : Statement .ret := rfl
theorem jpNnn (nnn : Addr12) : Statement (.jpNnn nnn) := by
  simp only [Statement, Instr.row, OpcodeRow.selects, encode, and_F000, fieldOp_packNNN]
  decide
theorem callNnn (nnn : Addr12) : Statement (.callNnn nnn) := by
  simp only [Statement, Instr.row, OpcodeRow.selects, encode, and_F000, fieldOp_packNNN]
  decide
theorem seVxNn (x : Nibble) (nn : Byte) : Statement (.seVxNn x nn) := by
  simp only [Statement, Instr.row, OpcodeRow.selects, encode, and_F000, fieldOp_packXNN]
  decide
theorem sneVxNn (x : Nibble) (nn : Byte) : Statement (.sneVxNn x nn) := by
  simp only [Statement, Instr.row, OpcodeRow.selects, encode, and_F000, fieldOp_packXNN]
  decide
theorem seVxVy (x y : Nibble) : Statement (.seVxVy x y) := by
  simp only [Statement, Instr.row, OpcodeRow.selects, encode, and_F00F, fieldOp_packXYN, fieldN_packXYN]
  decide
theorem ldVxNn (x : Nibble) (nn : Byte) : Statement (.ldVxNn x nn) := by
  simp only [Statement, Instr.row, OpcodeRow.selects, encode, and_F000, fieldOp_packXNN]
  decide
theorem addVxNn (x : Nibble) (nn : Byte) : Statement (.addVxNn x nn) := by
  simp only [Statement, Instr.row, OpcodeRow.selects, encode, and_F000, fieldOp_packXNN]
  decide
theorem ldVxVy (x y : Nibble) : Statement (.ldVxVy x y) := by
  simp only [Statement, Instr.row, OpcodeRow.selects, encode, and_F00F, fieldOp_packXYN, fieldN_packXYN]
  decide
theorem orVxVy (x y : Nibble) : Statement (.orVxVy x y) := by
  simp only [Statement, Instr.row, OpcodeRow.selects, encode, and_F00F, fieldOp_packXYN, fieldN_packXYN]
  decide
theorem andVxVy (x y : Nibble) : Statement (.andVxVy x y) := by
  simp only [Statement, Instr.row, OpcodeRow.selects, encode, and_F00F, fieldOp_packXYN, fieldN_packXYN]
  decide
theorem xorVxVy (x y : Nibble) : Statement (.xorVxVy x y) := by
  simp only [Statement, Instr.row, OpcodeRow.selects, encode, and_F00F, fieldOp_packXYN, fieldN_packXYN]
  decide
theorem addVxVy (x y : Nibble) : Statement (.addVxVy x y) := by
  simp only [Statement, Instr.row, OpcodeRow.selects, encode, and_F00F, fieldOp_packXYN, fieldN_packXYN]
  decide
theorem subVxVy (x y : Nibble) : Statement (.subVxVy x y) := by
  simp only [Statement, Instr.row, OpcodeRow.selects, encode, and_F00F, fieldOp_packXYN, fieldN_packXYN]
  decide
theorem shrVx (x y : Nibble) : Statement (.shrVx x y) := by
  simp only [Statement, Instr.row, OpcodeRow.selects, encode, and_F00F, fieldOp_packXYN, fieldN_packXYN]
  decide
theorem subnVxVy (x y : Nibble) : Statement (.subnVxVy x y) := by
  simp only [Statement, Instr.row, OpcodeRow.selects, encode, and_F00F, fieldOp_packXYN, fieldN_packXYN]
  decide
theorem shlVx (x y : Nibble) : Statement (.shlVx x y) := by
  simp only [Statement, Instr.row, OpcodeRow.selects, encode, and_F00F, fieldOp_packXYN, fieldN_packXYN]
  decide
theorem sneVxVy (x y : Nibble) : Statement (.sneVxVy x y) := by
  simp only [Statement, Instr.row, OpcodeRow.selects, encode, and_F00F, fieldOp_packXYN, fieldN_packXYN]
  decide
theorem ldINnn (nnn : Addr12) : Statement (.ldINnn nnn) := by
  simp only [Statement, Instr.row, OpcodeRow.selects, encode, and_F000, fieldOp_packNNN]
  decide
theorem jpV0Nnn (nnn : Addr12) : Statement (.jpV0Nnn nnn) := by
  simp only [Statement, Instr.row, OpcodeRow.selects, encode, and_F000, fieldOp_packNNN]
  decide
theorem rndVxNn (x : Nibble) (nn : Byte) : Statement (.rndVxNn x nn) := by
  simp only [Statement, Instr.row, OpcodeRow.selects, encode, and_F000, fieldOp_packXNN]
  decide
theorem drwVxVyN (x y n : Nibble) : Statement (.drwVxVyN x y n) := by
  simp only [Statement, Instr.row, OpcodeRow.selects, encode, and_F000, fieldOp_packXYN]
  decide
theorem skpVx (x : Nibble) : Statement (.skpVx x) := by
  simp only [Statement, Instr.row, OpcodeRow.selects, encode, and_F0FF, fieldOp_packXNN, fieldNn_packXNN]
  decide
theorem sknpVx (x : Nibble) : Statement (.sknpVx x) := by
  simp only [Statement, Instr.row, OpcodeRow.selects, encode, and_F0FF, fieldOp_packXNN, fieldNn_packXNN]
  decide
theorem ldVxDt (x : Nibble) : Statement (.ldVxDt x) := by
  simp only [Statement, Instr.row, OpcodeRow.selects, encode, and_F0FF, fieldOp_packXNN, fieldNn_packXNN]
  decide
theorem ldVxK (x : Nibble) : Statement (.ldVxK x) := by
  simp only [Statement, Instr.row, OpcodeRow.selects, encode, and_F0FF, fieldOp_packXNN, fieldNn_packXNN]
  decide
theorem ldDtVx (x : Nibble) : Statement (.ldDtVx x) := by
  simp only [Statement, Instr.row, OpcodeRow.selects, encode, and_F0FF, fieldOp_packXNN, fieldNn_packXNN]
  decide
theorem ldStVx (x : Nibble) : Statement (.ldStVx x) := by
  simp only [Statement, Instr.row, OpcodeRow.selects, encode, and_F0FF, fieldOp_packXNN, fieldNn_packXNN]
  decide
theorem addIVx (x : Nibble) : Statement (.addIVx x) := by
  simp only [Statement, Instr.row, OpcodeRow.selects, encode, and_F0FF, fieldOp_packXNN, fieldNn_packXNN]
  decide
theorem ldFVx (x : Nibble) : Statement (.ldFVx x) := by
  simp only [Statement, Instr.row, OpcodeRow.selects, encode, and_F0FF, fieldOp_packXNN, fieldNn_packXNN]
  decide
theorem ldBVx (x : Nibble) : Statement (.ldBVx x) := by
  simp only [Statement, Instr.row, OpcodeRow.selects, encode, and_F0FF, fieldOp_packXNN, fieldNn_packXNN]
  decide
theorem ldMemVx (x : Nibble) : Statement (.ldMemVx x) := by
  simp only [Statement, Instr.row, OpcodeRow.selects, encode, and_F0FF, fieldOp_packXNN, fieldNn_packXNN]
  decide
theorem ldVxMem (x : Nibble) : Statement (.ldVxMem x) := by
  simp only [Statement, Instr.row, OpcodeRow.selects, encode, and_F0FF, fieldOp_packXNN, fieldNn_packXNN]
  decide

end Sys2Proof.Laws.EncodingFitsRow
end

