-- ==== Sys2Proof/Tests/Slice0.lean ====
section
/-! SUPPORT. Checks of the model, each on fixed values. Expected values are those of spec 95_test_vectors.md (T and S
numbers) or of the rule named; the last part shows, for each statement with hypotheses, a state and operands that meet
them all. -/

namespace Sys2Proof.Machine.Tests

/-- The outcome is this next state, the whole state compared. -/
def nextIs (o : Host.Outcome State Fault Refusal) (t : State) : Bool :=
  match o with
  | .next u => decide (u = t)
  | _ => false

/-- A vector of 95_test_vectors.md: one step at word `w`, from the start state `s`, ends in the start state changed by `f`. -/
def vector (w : Word) (s : State) (f : State → State) : Bool :=
  nextIs (step (s.placeWord w)) (f (s.placeWord w))

/-- Registers overridden. -/
def State.withRegs (s : State) (l : List (Nibble × Byte)) : State := l.foldl (fun t p => t.setV p.1 p.2) s

/-- Memory bytes overridden. -/
def State.withMem (s : State) (a : Nat) (l : List Byte) : State := s.setMem (s.mem.writeBytes a l)

/-- A stack entry overridden. -/
def State.withEntry (s : State) (j : Fin 16) (w : Word) : State := s.setStack (s.stack.set j.val w)

/-- A display row overridden. -/
def State.withRow (s : State) (r : Fin 32) (w : FbRow) : State := s.setFb (s.fb.set r.val w)

/-- A key pressed. -/
def State.withKey (s : State) (c : Fin 16) : State := s.setK (s.k.set c.val true)

/-- The state halted with a fault record (60_exceptions.md R152). -/
def halted (cause : FaultCause) (opcode pc info : Word) (s : State) : State :=
  { s with status := .halted, fault := ⟨cause, opcode, pc, info⟩ }

/-- The state after `Reset` with the empty image. -/
abbrev r0 : State := State.reset

/-! ## WellFormed: ill-formed terms are refused -/

/-- A word of each of the six sets of 30_encoding.md R66 (T100 to T109) is no instruction. -/
theorem test_wellFormed_refuses_unlisted_words :
    [0x0123#16, 0x0000#16, 0x00E1#16, 0x00EF#16, 0x0FFF#16, 0x5001#16, 0x512F#16, 0x9001#16, 0x8008#16, 0x812D#16,
      0x812F#16, 0xE000#16, 0xE19F#16, 0xE1A0#16, 0xF000#16, 0xF108#16, 0xF156#16, 0xF166#16, 0xF1FF#16].all
      (fun w => !wordWellFormed w && decide (decodeWord w = .error (.unrecognized w))) = true := by decide +kernel

/-- The words around them that are instructions. -/
theorem test_wellFormed_accepts_listed_words :
    [0x00E0#16, 0x00EE#16, 0x5000#16, 0x9FF0#16, 0x800E#16, 0xE19E#16, 0xE1A1#16, 0xF107#16, 0xF165#16].all
      wordWellFormed = true := by decide +kernel

/-- T142, T143: 3584 bytes are the longest image. -/
theorem test_wellFormed_refuses_long_image :
    imageWellFormed (List.replicate 3584 0xFF#8) = true ∧ imageWellFormed (List.replicate 3585 0xFF#8) = false := by
  rw [imageWellFormed, imageWellFormed, List.length_replicate, List.length_replicate]
  exact ⟨rfl, rfl⟩

theorem test_wellFormed_refuses_long_image_any (b : Byte) : imageWellFormed (List.replicate 3585 b) = false := by
  rw [imageWellFormed, List.length_replicate]
  rfl

/-- Bytes that do not hold a whole word are no instruction (30_encoding.md R60). -/
theorem test_decode_refuses_short_bytes :
    decode [] = .error .truncated ∧ decode [0x00#8] = .error .truncated := by decide

/-! ## Decoding: each constructor's word written out from the pattern column of 30_encoding.md R65 -/

theorem test_decode_control :
    decode [0x00#8, 0b1110_1110#8] = .ok (.ret, []) ∧
    decode [0b0001_1010#8, 0b1011_1100#8] = .ok (.jpNnn 0xABC#12, []) ∧
    decode [0b0010_1010#8, 0b1011_1100#8] = .ok (.callNnn 0xABC#12, []) ∧
    decode [0b0011_1010#8, 0b0100_0010#8] = .ok (.seVxNn 0xA#4 0x42#8, []) ∧
    decode [0b0100_1010#8, 0b0100_0010#8] = .ok (.sneVxNn 0xA#4 0x42#8, []) ∧
    decode [0b0101_0001#8, 0b0010_0000#8] = .ok (.seVxVy 0x1#4 0x2#4, []) ∧
    decode [0b1001_0001#8, 0b0010_0000#8] = .ok (.sneVxVy 0x1#4 0x2#4, []) ∧
    decode [0b1011_0011#8, 0b0000_0001#8, 0xAA#8] = .ok (.jpV0Nnn 0x301#12, [0xAA#8]) := by decide

theorem test_decode_alu :
    decode [0b0110_1111#8, 0b0010_1010#8] = .ok (.ldVxNn 0xF#4 0x2A#8, []) ∧
    decode [0b0111_0011#8, 0b1000_0001#8] = .ok (.addVxNn 0x3#4 0x81#8, []) ∧
    decode [0b1000_0001#8, 0b0010_0000#8] = .ok (.ldVxVy 0x1#4 0x2#4, []) ∧
    decode [0b1000_0001#8, 0b0010_0001#8] = .ok (.orVxVy 0x1#4 0x2#4, []) ∧
    decode [0b1000_0001#8, 0b0010_0010#8] = .ok (.andVxVy 0x1#4 0x2#4, []) := by decide

theorem test_decode_alu_more :
    decode [0b1000_0001#8, 0b0010_0011#8] = .ok (.xorVxVy 0x1#4 0x2#4, []) ∧
    decode [0b1000_0001#8, 0b0010_0100#8] = .ok (.addVxVy 0x1#4 0x2#4, []) ∧
    decode [0b1000_0001#8, 0b0010_0101#8] = .ok (.subVxVy 0x1#4 0x2#4, []) ∧
    decode [0b1000_0001#8, 0b0010_0110#8] = .ok (.shrVx 0x1#4 0x2#4, []) ∧
    decode [0b1000_0001#8, 0b0010_0111#8] = .ok (.subnVxVy 0x1#4 0x2#4, []) ∧
    decode [0b1000_0001#8, 0b0010_1110#8] = .ok (.shlVx 0x1#4 0x2#4, []) ∧
    decode [0b1100_0001#8, 0b0000_1111#8] = .ok (.rndVxNn 0x1#4 0x0F#8, []) := by decide

theorem test_decode_index_memory :
    decode [0b1010_1111#8, 0b1111_1110#8] = .ok (.ldINnn 0xFFE#12, []) ∧
    decode [0b1111_0001#8, 0b0001_1110#8] = .ok (.addIVx 0x1#4, []) ∧
    decode [0b1111_0010#8, 0b0010_1001#8] = .ok (.ldFVx 0x2#4, []) ∧
    decode [0b1111_0011#8, 0b0011_0011#8] = .ok (.ldBVx 0x3#4, []) ∧
    decode [0b1111_0100#8, 0b0101_0101#8] = .ok (.ldMemVx 0x4#4, []) ∧
    decode [0b1111_0101#8, 0b0110_0101#8] = .ok (.ldVxMem 0x5#4, []) := by decide

theorem test_decode_display :
    decode [0x00#8, 0b1110_0000#8] = .ok (.cls, []) ∧
    decode [0b1101_0001#8, 0b0010_0011#8] = .ok (.drwVxVyN 0x1#4 0x2#4 0x3#4, []) := by decide

theorem test_decode_keypad_timers :
    decode [0b1110_0001#8, 0b1001_1110#8] = .ok (.skpVx 0x1#4, []) ∧
    decode [0b1110_0010#8, 0b1010_0001#8] = .ok (.sknpVx 0x2#4, []) ∧
    decode [0b1111_0011#8, 0b0000_0111#8] = .ok (.ldVxDt 0x3#4, []) ∧
    decode [0b1111_0100#8, 0b0000_1010#8] = .ok (.ldVxK 0x4#4, []) ∧
    decode [0b1111_0101#8, 0b0001_0101#8] = .ok (.ldDtVx 0x5#4, []) ∧
    decode [0b1111_0110#8, 0b0001_1000#8] = .ok (.ldStVx 0x6#4, []) := by decide

/-- The host's numbering: bit 0 is the least significant bit of the one 16-bit word, the first byte its high half. -/
theorem test_decodeTableWord :
    decodeTableWord 16 0x6F2A = some (.ldVxNn 0xF#4 0x2A#8) ∧ decodeTableWord 16 0x00E0 = some .cls ∧
    decodeTableWord 16 0x5001 = none := by decide

/-! ## Control transfer -/

/-- T2: the increment of `SP` wraps from 0xFF to 0x00. -/
theorem test_ret_wraps : vector 0x00EE#16 (State.withEntry (r0.setSp 0xFF#8) 0 0x0ABC#16)
    (fun s => (s.setSp 0x00#8).setPc 0x0ABC#16) = true := by decide

/-- T4. -/
theorem test_ret_underflow : vector 0x00EE#16 r0 (halted .stackUnderflow 0x00EE#16 0x0200#16 0x000F#16) = true := by decide

/-- T6: odd targets are legal. -/
theorem test_jp_odd : vector 0x1201#16 r0 (·.setPc 0x0201#16) = true := by decide

/-- T9: the sixteenth push; the decrement wraps. -/
theorem test_call_sixteenth : vector 0x2ABC#16 (r0.setSp 0x00#8)
    (fun s => ((State.withEntry s 0 0x0202#16).setSp 0xFF#8).setPc 0x0ABC#16) = true := by decide

/-- T10. -/
theorem test_call_overflow : vector 0x2ABC#16 (r0.setSp 0xFF#8)
    (halted .stackOverflow 0x2ABC#16 0x0200#16 0x00FF#16) = true := by decide

/-- T12. -/
theorem test_se_const_equal : vector 0x3A42#16 (State.withRegs r0 [(0xA#4, 0x42#8)]) (·.setPc 0x0204#16) = true := by decide

/-- T13. -/
theorem test_se_const_differ : vector 0x3A42#16 (State.withRegs r0 [(0xA#4, 0x43#8)]) (·.setPc 0x0202#16) = true := by decide

/-- T14. -/
theorem test_sne_const_equal : vector 0x4A42#16 (State.withRegs r0 [(0xA#4, 0x42#8)]) (·.setPc 0x0202#16) = true := by decide

/-- T15. -/
theorem test_sne_const_differ : vector 0x4A42#16 (State.withRegs r0 [(0xA#4, 0x43#8)]) (·.setPc 0x0204#16) = true := by decide

/-- T17. -/
theorem test_se_regs_differ : vector 0x5120#16 (State.withRegs r0 [(0x1#4, 0x07#8), (0x2#4, 0x08#8)])
    (·.setPc 0x0202#16) = true := by decide

/-- T18. -/
theorem test_se_regs_same : vector 0x5330#16 (State.withRegs r0 [(0x3#4, 0x09#8)]) (·.setPc 0x0204#16) = true := by decide

/-- T19. -/
theorem test_sne_regs_equal : vector 0x9120#16 (State.withRegs r0 [(0x1#4, 0x07#8), (0x2#4, 0x07#8)])
    (·.setPc 0x0202#16) = true := by decide

/-- T20. -/
theorem test_sne_regs_differ : vector 0x9120#16 (State.withRegs r0 [(0x1#4, 0x07#8), (0x2#4, 0x08#8)])
    (·.setPc 0x0204#16) = true := by decide

/-- T22. -/
theorem test_jp_v0 : vector 0xB300#16 (State.withRegs r0 [(0x0#4, 0x10#8)]) (·.setPc 0x0310#16) = true := by decide

/-- T25: no reduction modulo 4096. -/
theorem test_jp_v0_unreduced : vector 0xBFFF#16 (State.withRegs r0 [(0x0#4, 0xFF#8)]) (·.setPc 0x10FE#16) = true := by decide

/-! ## Arithmetic and logic -/

/-- T30. -/
theorem test_ld_const_vf : vector 0x6F2A#16 r0 (fun s => (State.withRegs s [(0xF#4, 0x2A#8)]).setPc 0x0202#16) = true := by
  decide

/-- T31: no carry flag. -/
theorem test_add_const_wraps : vector 0x7001#16 (State.withRegs r0 [(0x0#4, 0xFF#8)])
    (fun s => (State.withRegs s [(0x0#4, 0x00#8)]).setPc 0x0202#16) = true := by decide

/-- T32. -/
theorem test_add_const_vf : vector 0x7FFF#16 (State.withRegs r0 [(0xF#4, 0x01#8)])
    (fun s => (State.withRegs s [(0xF#4, 0x00#8)]).setPc 0x0202#16) = true := by decide

/-- T34. -/
theorem test_ld_reg : vector 0x8120#16 (State.withRegs r0 [(0x1#4, 0x01#8), (0x2#4, 0xAB#8)])
    (fun s => (State.withRegs s [(0x1#4, 0xAB#8)]).setPc 0x0202#16) = true := by decide

/-- T35. -/
theorem test_or : vector 0x8121#16 (State.withRegs r0 [(0x1#4, 0xF0#8), (0x2#4, 0x0F#8), (0xF#4, 0x77#8)])
    (fun s => (State.withRegs s [(0x1#4, 0xFF#8)]).setPc 0x0202#16) = true := by decide

/-- T36. -/
theorem test_and : vector 0x8122#16 (State.withRegs r0 [(0x1#4, 0xF0#8), (0x2#4, 0x3C#8), (0xF#4, 0x77#8)])
    (fun s => (State.withRegs s [(0x1#4, 0x30#8)]).setPc 0x0202#16) = true := by decide

/-- T37. -/
theorem test_xor : vector 0x8123#16 (State.withRegs r0 [(0x1#4, 0xF0#8), (0x2#4, 0x3C#8), (0xF#4, 0x77#8)])
    (fun s => (State.withRegs s [(0x1#4, 0xCC#8)]).setPc 0x0202#16) = true := by decide

/-- T41: the flag overwrites the result. -/
theorem test_add_into_vf : vector 0x8F14#16 (State.withRegs r0 [(0xF#4, 0xF0#8), (0x1#4, 0x20#8)])
    (fun s => (State.withRegs s [(0xF#4, 0x01#8)]).setPc 0x0202#16) = true := by decide

/-- T42: the old `VF` is the addend. -/
theorem test_add_from_vf : vector 0x81F4#16 (State.withRegs r0 [(0x1#4, 0xFF#8), (0xF#4, 0x02#8)])
    (fun s => (State.withRegs s [(0x1#4, 0x01#8), (0xF#4, 0x01#8)]).setPc 0x0202#16) = true := by decide

/-- S3, first half: a borrow clears the flag. -/
theorem test_sub_borrow : vector 0x8125#16 (State.withRegs r0 [(0x1#4, 0x01#8), (0x2#4, 0x02#8), (0xF#4, 0x01#8)])
    (fun s => (State.withRegs s [(0x1#4, 0xFF#8), (0xF#4, 0x00#8)]).setPc 0x0202#16) = true := by decide

/-- T44: equal operands do not borrow. -/
theorem test_sub_equal : vector 0x8125#16 (State.withRegs r0 [(0x1#4, 0x05#8), (0x2#4, 0x05#8)])
    (fun s => (State.withRegs s [(0x1#4, 0x00#8), (0xF#4, 0x01#8)]).setPc 0x0202#16) = true := by decide

/-- S4: `Vy` plays no part. -/
theorem test_shr : vector 0x8126#16 (State.withRegs r0 [(0x1#4, 0x03#8), (0x2#4, 0xFF#8)])
    (fun s => (State.withRegs s [(0x1#4, 0x01#8), (0xF#4, 0x01#8)]).setPc 0x0202#16) = true := by decide

/-- T52: the shifted value stands, the flag is lost. -/
theorem test_shr_vf : vector 0x8F06#16 (State.withRegs r0 [(0xF#4, 0x02#8)])
    (fun s => (State.withRegs s [(0xF#4, 0x01#8)]).setPc 0x0202#16) = true := by decide

/-- T54. -/
theorem test_subn_borrow : vector 0x8127#16 (State.withRegs r0 [(0x1#4, 0x02#8), (0x2#4, 0x01#8), (0xF#4, 0x01#8)])
    (fun s => (State.withRegs s [(0x1#4, 0xFF#8), (0xF#4, 0x00#8)]).setPc 0x0202#16) = true := by decide

/-- T57. -/
theorem test_subn_into_vf : vector 0x8F17#16 (State.withRegs r0 [(0xF#4, 0x03#8), (0x1#4, 0x05#8)])
    (fun s => (State.withRegs s [(0xF#4, 0x01#8)]).setPc 0x0202#16) = true := by decide

/-- T58. -/
theorem test_shl : vector 0x812E#16 (State.withRegs r0 [(0x1#4, 0x81#8), (0x2#4, 0xFF#8)])
    (fun s => (State.withRegs s [(0x1#4, 0x02#8), (0xF#4, 0x01#8)]).setPc 0x0202#16) = true := by decide

/-- T61: the shifted value stands. -/
theorem test_shl_vf : vector 0x8F0E#16 (State.withRegs r0 [(0xF#4, 0x41#8)])
    (fun s => (State.withRegs s [(0xF#4, 0x82#8)]).setPc 0x0202#16) = true := by decide

/-- T62: the draw handed over is masked and used up. -/
theorem test_rnd_mask : vector 0xC10F#16 (r0.setRndIn [0xA7#8])
    (fun s => ((State.withRegs s [(0x1#4, 0x07#8)]).setPc 0x0202#16).setRndIn []) = true := by decide

/-- T65. -/
theorem test_rnd_vf : vector 0xCFF0#16 (r0.setRndIn [0x5A#8])
    (fun s => ((State.withRegs s [(0xF#4, 0x50#8)]).setPc 0x0202#16).setRndIn []) = true := by decide

/-! ## Index register and memory -/

/-- T66. -/
theorem test_ld_i : vector 0xAFFF#16 r0 (fun s => (s.setI 0x0FFF#16).setPc 0x0202#16) = true := by decide

/-- T67: no flag, no fault until `I` is used. -/
theorem test_add_i : vector 0xF11E#16 ((State.withRegs r0 [(0x1#4, 0x01#8), (0xF#4, 0x07#8)]).setI 0x0FFF#16)
    (fun s => (s.setI 0x1000#16).setPc 0x0202#16) = true := by decide

/-- 42_index_memory.md R111: the sum is modulo 65536. -/
theorem test_add_i_wraps : vector 0xF11E#16 ((State.withRegs r0 [(0x1#4, 0x02#8)]).setI 0xFFFF#16)
    (fun s => (s.setI 0x0001#16).setPc 0x0202#16) = true := by decide

/-- 42_index_memory.md R112 with `V1 = 0xFF`: 0x100 + 5 * 255, the whole byte used. -/
theorem test_ld_f_whole_byte : vector 0xF129#16 (State.withRegs r0 [(0x1#4, 0xFF#8)])
    (fun s => (s.setI 0x05FB#16).setPc 0x0202#16) = true := by decide

/-- S7. -/
theorem test_ld_b : vector 0xF133#16 ((State.withRegs r0 [(0x1#4, 0xEA#8)]).setI 0x0300#16)
    (fun s => (State.withMem s 0x300 [0x02#8, 0x03#8, 0x04#8]).setPc 0x0202#16) = true := by decide

/-- P5f, as a vector: no byte is written when the last one is out of range. -/
theorem test_ld_b_fault : vector 0xF033#16 ((State.withRegs r0 [(0x0#4, 0xFF#8)]).setI 0x0FFE#16)
    (halted .dataOutOfRange 0xF033#16 0x0200#16 0x1000#16) = true := by decide

/-- T79b: exactly `V0..V2` are stored and `I` stays. -/
theorem test_ld_mem : vector 0xF255#16
    ((State.withRegs r0 [(0x0#4, 0x11#8), (0x1#4, 0x22#8), (0x2#4, 0x33#8), (0x3#4, 0x44#8)]).setI 0x0400#16)
    (fun s => (State.withMem s 0x400 [0x11#8, 0x22#8, 0x33#8]).setPc 0x0202#16) = true := by decide

/-- T79d. -/
theorem test_ld_mem_fault : vector 0xF155#16 ((State.withRegs r0 [(0x0#4, 0x11#8), (0x1#4, 0x22#8)]).setI 0x0FFF#16)
    (halted .dataOutOfRange 0xF155#16 0x0200#16 0x1000#16) = true := by decide

/-- T79g: exactly `V0..V2` are loaded and `I` stays. -/
theorem test_ld_regs : vector 0xF265#16
    (State.withMem ((State.withRegs r0 [(0x3#4, 0x99#8)]).setI 0x0400#16) 0x400 [0xAA#8, 0xBB#8, 0xCC#8, 0xDD#8])
    (fun s => (State.withRegs s [(0x0#4, 0xAA#8), (0x1#4, 0xBB#8), (0x2#4, 0xCC#8)]).setPc 0x0202#16) = true := by decide

/-- T79i. -/
theorem test_ld_regs_fault : vector 0xF165#16 (State.withMem (r0.setI 0x0FFF#16) 0xFFF [0x5A#8])
    (halted .dataOutOfRange 0xF165#16 0x0200#16 0x1000#16) = true := by decide

/-! ## Display: row `r`, column `c` is bit `c` of row `r` -/

/-- T95: all cells cleared, `VF` kept. -/
theorem test_cls : vector 0x00E0#16
    (State.withRow (State.withRow (State.withRegs r0 [(0xF#4, 0x01#8)]) 0 1#64) 31 0x8000000000000000#64)
    (fun s => (State.withRow (State.withRow s 0 0#64) 31 0#64).setPc 0x0202#16) = true := by decide

/-- T80: columns 60..63 of row 5 set, columns 64..67 dropped. -/
theorem test_drw_clips : vector 0xD011#16
    (State.withMem ((State.withRegs r0 [(0x0#4, 0x3C#8), (0x1#4, 0x05#8)]).setI 0x0300#16) 0x300 [0xFF#8])
    (fun s => (State.withRow s 5 0xF000000000000000#64).setPc 0x0202#16) = true := by decide

/-- T94: the row is the old `VF`; a set cell goes out and the flag is 1. -/
theorem test_drw_collides_vf : vector 0xD0F1#16
    (State.withRow (State.withMem ((State.withRegs r0 [(0x0#4, 0x01#8), (0xF#4, 0x02#8)]).setI 0x0300#16) 0x300 [0x80#8])
      2 0b10#64)
    (fun s => ((State.withRow s 2 0#64).setV 0xF#4 0x01#8).setPc 0x0202#16) = true := by decide

/-! ## Keys and timers -/

/-- T114. -/
theorem test_skp_pressed : vector 0xE19E#16 (State.withKey (State.withRegs r0 [(0x1#4, 0x0F#8)]) 15)
    (·.setPc 0x0204#16) = true := by decide

/-- T115. -/
theorem test_skp_fault : vector 0xE19E#16 (State.withRegs r0 [(0x1#4, 0x10#8)])
    (halted .keyIndexOutOfRange 0xE19E#16 0x0200#16 0x0010#16) = true := by decide

/-- T112. -/
theorem test_sknp_pressed : vector 0xE1A1#16 (State.withKey (State.withRegs r0 [(0x1#4, 0x05#8)]) 5)
    (·.setPc 0x0202#16) = true := by decide

/-- T116. -/
theorem test_sknp_fault : vector 0xE1A1#16 (State.withRegs r0 [(0x1#4, 0xFF#8)])
    (halted .keyIndexOutOfRange 0xE1A1#16 0x0200#16 0x00FF#16) = true := by decide

/-- T117. -/
theorem test_ld_dt_read : vector 0xF107#16 (r0.setDt 0x3C#8)
    (fun s => (State.withRegs s [(0x1#4, 0x3C#8)]).setPc 0x0202#16) = true := by decide

/-- T122: the lowest code. -/
theorem test_key_wait_lowest : vector 0xF10A#16 (State.withKey (State.withKey r0 3) 9)
    (fun s => (State.withRegs s [(0x1#4, 0x03#8)]).setPc 0x0202#16) = true := by decide

/-- T121: no key, nothing changes at all. -/
theorem test_key_wait_polls : vector 0xF10A#16 (State.withRegs r0 [(0x1#4, 0x77#8)]) id = true := by decide

/-- T120. -/
theorem test_ld_dt_write : vector 0xFF15#16 (State.withRegs r0 [(0xF#4, 0x09#8)])
    (fun s => (s.setDt 0x09#8).setPc 0x0202#16) = true := by decide

/-- T119. -/
theorem test_ld_st_write : vector 0xF118#16 (State.withRegs r0 [(0x1#4, 0x02#8)])
    (fun s => (s.setSt 0x02#8).setPc 0x0202#16) = true := by decide

/-! ## Fetch, decode and the halted machine -/

/-- T29: the second byte is outside memory. -/
theorem test_fetch_second_byte : nextIs (step (r0.setPc 0x0FFF#16))
    (halted .fetchOutOfRange 0x0000#16 0x0FFF#16 0x1000#16 (r0.setPc 0x0FFF#16)) = true := by decide

/-- T25, the step after it. -/
theorem test_fetch_above : nextIs (step (r0.setPc 0x10FE#16))
    (halted .fetchOutOfRange 0x0000#16 0x10FE#16 0x10FE#16 (r0.setPc 0x10FE#16)) = true := by decide

/-- T104. -/
theorem test_unrecognized : vector 0x5001#16 (State.withRegs r0 [(0x1#4, 0x10#8)])
    (halted .unrecognizedOpcode 0x5001#16 0x0200#16 0x0000#16) = true := by decide

/-- T28: the last word of memory runs, `PC` leaves memory. -/
theorem test_last_word : vector 0x6000#16 (r0.setPc 0x0FFE#16) (·.setPc 0x1000#16) = true := by decide

/-- T131. -/
theorem test_halted_step : nextIs (step (halted .stackUnderflow 0x00EE#16 0x0200#16 0x000F#16 r0))
    (halted .stackUnderflow 0x00EE#16 0x0200#16 0x000F#16 r0) = true := by decide

/-- P5a: reset memory holds no program, so the first step reads 0x0000 and halts. -/
theorem test_reset_empty_image : nextIs (step r0) (halted .unrecognizedOpcode 0x0000#16 0x0200#16 0x0000#16 r0) = true := by
  decide

/-! ## The other operations -/

/-- T126, T127: no wrap below zero. -/
theorem test_tick : tick (r0.setDt 0x02#8) = r0.setDt 0x01#8 ∧ tick (r0.setSt 0x01#8) = r0 := by decide

/-- T129. -/
theorem test_tick_halted : tick (halted .stackUnderflow 0x00EE#16 0x0200#16 0x000F#16 (r0.setDt 0x05#8)) =
    halted .stackUnderflow 0x00EE#16 0x0200#16 0x000F#16 (r0.setDt 0x05#8) := by decide

/-- T130. -/
theorem test_keyWrite_halted : (keyWrite 0x7#4 true (halted .stackUnderflow 0x00EE#16 0x0200#16 0x000F#16 r0)).keyDown 0x7#4 =
    true := by decide

/-- T141. -/
theorem test_reset_image : nextIs (resetImage [0x12#8, 0x00#8]) { r0 with mem := [(0x200, 0x12#8)] } = true := by decide

/-- R181's examples: a `Tick` with a `Step` that executes Fx15 decrements the value just loaded, a `KeyWrite` with a `Step`
is seen by that step, and the reads see the state before both. -/
theorem test_cycle_examples :
    nextIs (cycle ⟨none, none, some 0x00#8, true, none, true, false⟩
        ((State.withRegs r0 [(0x1#4, 0x3C#8)]).placeWord 0xF115#16)).1
      ((((State.withRegs r0 [(0x1#4, 0x3C#8)]).placeWord 0xF115#16).setDt 0x3B#8).setPc 0x0202#16) = true ∧
    nextIs (cycle ⟨none, some (0x5#4, true), some 0x00#8, false, none, false, true⟩
        ((State.withRegs r0 [(0x1#4, 0x05#8)]).placeWord 0xE19E#16)).1
      ((State.withKey ((State.withRegs r0 [(0x1#4, 0x05#8)]).placeWord 0xE19E#16) 5).setPc 0x0204#16) = true ∧
    (cycle ⟨none, none, some 0x00#8, false, some 2047, false, true⟩ r0).2 =
      ⟨some (.cell false), none, some (.status .running FaultRecord.clear)⟩ := by decide

/-- T145. -/
theorem test_reads : reply (.fbRead 0) r0 = .cell false ∧ reply (.fbRead 2047) r0 = .cell false ∧
    reply .soundRead r0 = .sound 0x00#8 false ∧ reply .statusRead r0 = .status .running FaultRecord.clear := by decide

/-- T79k: the font area reads as `FONT`, whatever its bytes. -/
theorem test_font_read : r0.mem.read 0x100 = fontByte 0 ∧ r0.mem.read 0x14F = fontByte 79 ∧ r0.mem.read 0x0FF = 0x00#8 ∧
    r0.mem.read 0x150 = 0x00#8 := ⟨rfl, rfl, rfl, rfl⟩

/-! ## Witnesses: the hypotheses of each statement are met, clause by clause -/

theorem next_of_nextIs {o : Host.Outcome State Fault Refusal} {t : State} (h : nextIs o t = true) : o = .next t := by
  cases o <;> simp_all [nextIs]

/-- A machine halted by a return from an empty stack. -/
abbrev stopped : State := halted .stackUnderflow 0x00EE#16 0x0200#16 0x000F#16 r0

/-- RUNNING at a jump to itself. -/
abbrev looping : State := r0.placeWord 0x1200#16

theorem witness_EncodeInvertsDecode : decodeWord 0x81F6#16 = .ok (.shrVx 0x1#4 0xF#4) := by decide

theorem witness_DecodeAcceptsExactlyTheOpcodeMap : decodeWord 0xFF65#16 = .ok (.ldVxMem 0xF#4) ∧
    0xFF65#16 = (Instr.ldVxMem 0xF#4).layout ∧
    (Instr.ldVxMem 0xF#4).row ∈ opcodeMap ∧ (Instr.ldVxMem 0xF#4).row.selects 0xFF65#16 = true := by decide

/-- The last word of each of the six sets. -/
theorem witness_UnrecognizedWordsAreSixSets :
    (fieldOp 0x0FFF#16 = 0x0#4 ∧ fieldNnn 0x0FFF#16 ≠ 0x0E0#12 ∧ fieldNnn 0x0FFF#16 ≠ 0x0EE#12) ∧
    (fieldOp 0x5FFF#16 = 0x5#4 ∧ fieldN 0x5FFF#16 ≠ 0x0#4) ∧
    (fieldOp 0x8FFF#16 = 0x8#4 ∧ fieldN 0x8FFF#16 ∈ [0x8#4, 0x9#4, 0xA#4, 0xB#4, 0xC#4, 0xD#4, 0xF#4]) ∧
    (fieldOp 0x9FFF#16 = 0x9#4 ∧ fieldN 0x9FFF#16 ≠ 0x0#4) ∧
    (fieldOp 0xEFFF#16 = 0xE#4 ∧ fieldNn 0xEFFF#16 ≠ 0x9E#8 ∧ fieldNn 0xEFFF#16 ≠ 0xA1#8) ∧
    (fieldOp 0xFFFF#16 = 0xF#4 ∧ fieldNn 0xFFFF#16 ∉
      [0x07#8, 0x0A#8, 0x15#8, 0x18#8, 0x1E#8, 0x29#8, 0x33#8, 0x55#8, 0x65#8]) := by decide

/-- The longest image, its last byte, the last font byte, the cells around the font and the image; and one byte more. -/
theorem witness_ResetPlacesImage (b : Byte) :
    (List.replicate 3584 b).length ≤ 3584 ∧ 3583 < (List.replicate 3584 b).length ∧ 79 < 80 ∧
    (0x0FF < 0x100 ∧ (0x150 ≤ 0x1FF ∧ 0x1FF < 0x200) ∧ 0x200 + (List.replicate 3584 b).length ≤ 0x1000) ∧
    (List.replicate 3585 b).length > 3584 := by
  simp only [List.length_replicate]; omega

theorem witness_StepRunsDecodedInstruction :
    let s := (r0.setPc 0x0FFE#16).placeWord 0x1FFF#16
    s.status = .running ∧ s.pc.toNat ≤ 0xFFE ∧
    decodeWord (wordOfBytes (s.mem.read s.pc.toNat) (s.mem.read (s.pc.toNat + 1))) = .ok (.jpNnn 0xFFF#12) := by decide

theorem witness_StepRunsPlacedWord : decodeTableWord 16 0xFF65 = some (.ldVxMem 0xF#4) := by decide

/-- The two forms of the reported address. -/
theorem witness_FetchAboveMemoryHalts :
    ((r0.setPc 0x0FFF#16).status = .running ∧ (r0.setPc 0x0FFF#16).pc.toNat > 0xFFE ∧
      (r0.setPc 0x0FFF#16).pc.toNat < 0x1000) ∧
    ((r0.setPc 0x1000#16).status = .running ∧ (r0.setPc 0x1000#16).pc.toNat > 0xFFE ∧
      ¬ (r0.setPc 0x1000#16).pc.toNat < 0x1000) := by decide

theorem witness_UnrecognizedOpcodeHalts :
    let s := (r0.setPc 0x0FFE#16).placeWord 0xFFFF#16
    s.status = .running ∧ s.pc.toNat ≤ 0xFFE ∧
    0xFFFF#16 = wordOfBytes (s.mem.read s.pc.toNat) (s.mem.read (s.pc.toNat + 1)) ∧ wordWellFormed 0xFFFF#16 = false := by
  decide +kernel

/-- Each fault of execution, at the first value that raises it. -/
theorem witness_ExecutionFaultsAreExactlyTheTable :
    (r0.status = .running ∧ SpLegal r0.sp ∧ faultOf .ret r0 = some (.stackUnderflow, 0x000F#16)) ∧
    (SpLegal 0xFF#8 ∧ faultOf (.callNnn 0x300#12) (r0.setSp 0xFF#8) = some (.stackOverflow, 0x00FF#16)) ∧
    faultOf (.drwVxVyN 0x0#4 0x1#4 0xF#4) (r0.setI 0x0FF2#16) = some (.dataOutOfRange, 0x1000#16) ∧
    faultOf (.ldBVx 0x0#4) (r0.setI 0x1001#16) = some (.dataOutOfRange, 0x1001#16) ∧
    faultOf (.ldMemVx 0xF#4) (r0.setI 0x0FF1#16) = some (.dataOutOfRange, 0x1000#16) ∧
    faultOf (.ldVxMem 0x0#4) (r0.setI 0x1000#16) = some (.dataOutOfRange, 0x1000#16) ∧
    faultOf (.skpVx 0x1#4) (r0.setV 0x1#4 0x10#8) = some (.keyIndexOutOfRange, 0x0010#16) ∧
    faultOf (.sknpVx 0x1#4) (r0.setV 0x1#4 0x10#8) = some (.keyIndexOutOfRange, 0x0010#16) := by decide

/-- Each of those instructions at the last value that raises nothing. -/
theorem witness_ExecutionCompletes :
    faultOf .ret (r0.setSp 0x0E#8) = none ∧ faultOf (.callNnn 0x300#12) (r0.setSp 0x00#8) = none ∧
    faultOf (.drwVxVyN 0x0#4 0x1#4 0xF#4) (r0.setI 0x0FF1#16) = none ∧
    faultOf (.drwVxVyN 0x0#4 0x1#4 0x0#4) (r0.setI 0xFFFF#16) = none ∧
    faultOf (.ldBVx 0x0#4) (r0.setI 0x0FFD#16) = none ∧ faultOf (.ldMemVx 0xF#4) (r0.setI 0x0FF0#16) = none ∧
    faultOf (.ldVxMem 0x0#4) (r0.setI 0x0FFF#16) = none ∧ faultOf (.skpVx 0x1#4) (r0.setV 0x1#4 0x0F#8) = none ∧
    faultOf (.sknpVx 0x1#4) (r0.setV 0x1#4 0x0F#8) = none ∧ faultOf .cls r0 = none := by decide

/-- A halt with the opcode reported, and one without. -/
theorem witness_HaltingStepChangesNothingElse :
    (r0.status = .running ∧ ∃ t, step r0 = .next t ∧ t.status = .halted ∧ t.fault.cause ≠ .fetchOutOfRange) ∧
    ((r0.setPc 0x0FFF#16).status = .running ∧
      ∃ t, step (r0.setPc 0x0FFF#16) = .next t ∧ t.status = .halted ∧ t.fault.cause = .fetchOutOfRange) :=
  ⟨⟨rfl, _, next_of_nextIs test_reset_empty_image, rfl, by decide⟩,
    rfl, _, next_of_nextIs test_fetch_second_byte, rfl, rfl⟩

theorem witness_HaltedMachineStandsStill (b : Byte) : stopped.status = .halted ∧ (List.replicate 3584 b).length ≤ 3584 := by
  simp only [List.length_replicate]; exact ⟨rfl, le_refl _⟩

theorem witness_OnlyResetLeavesHalted : stopped.status = .halted ∧
    ∀ image, .reset image ∉ [Operation.step 0x00#8, .tick, .keyWrite 0x7#4 true, .statusRead] := by
  simp [halted]

theorem witness_OnlyStepsCanHalt : r0.status = .running ∧
    ∀ op ∈ [Operation.tick, .keyWrite 0x7#4 true, .soundRead, .reset [0x12#8, 0x00#8], .tick],
      (∀ rnd, op ≠ .step rnd) ∧ ∀ image, op = .reset image → image.length ≤ 3584 := by
  refine ⟨rfl, ?_⟩
  simp only [List.forall_mem_cons]
  simp

theorem witness_RandomInputReachesOnlyRnd :
    ∀ w x nn, looping.fetch = .ok w → decodeWord w ≠ .ok (.rndVxNn x nn) := by
  intro w x nn h
  have hf : looping.fetch = .ok 0x1200#16 := by decide
  have hd : decodeWord 0x1200#16 = .ok (.jpNnn 0x200#12) := by decide
  rw [hf] at h
  cases h
  rw [hd]
  simp

/-- BCD at the end of memory: it completes, it stores at its last byte and not at the byte before its first. -/
theorem witness_InstructionsChangeOnlyTheirParts :
    let s := r0.setI 0x0FFD#16
    (∃ t, exec (.ldBVx 0x1#4) s = .next t ∧ t.status = .running) ∧ storesTo (.ldBVx 0x1#4) s 0xFFF ∧
      ¬ storesTo (.ldBVx 0x1#4) s 0xFFC := by
  refine ⟨⟨_, rfl, rfl⟩, ⟨2, by decide, rfl⟩, ?_⟩
  rintro ⟨k, -, h⟩
  have h2 : (0xFFC : Nat) = 0xFFD + k := h
  omega

/-- A register that is neither destination nor flag, and `VF` under an instruction that writes no flag. -/
theorem witness_RegistersChangeOnlyAsDestination :
    (∃ t, exec (.addVxVy 0x1#4 0x2#4) r0 = .next t) ∧ isDestination (.addVxVy 0x1#4 0x2#4) 0x2#4 = false ∧ 0x2#4 ≠ vf ∧
    (∃ t, exec (.ldVxVy 0x1#4 0x2#4) r0 = .next t) ∧ isDestination (.ldVxVy 0x1#4 0x2#4) vf = false ∧
    writesFlag (.ldVxVy 0x1#4 0x2#4) = false :=
  ⟨⟨_, rfl⟩, by decide, by decide, ⟨_, rfl⟩, by decide, by decide⟩

/-- The first and the sixteenth push. -/
theorem witness_CallPushesReturnAddress :
    (r0.sp.toNat ≤ 15 ∧ r0.sp.toNat ≠ 0 ∧ (14 : Nat) ≠ r0.sp.toNat) ∧
    ((r0.setSp 0x00#8).sp.toNat ≤ 15 ∧ (r0.setSp 0x00#8).sp.toNat = 0) := by decide

/-- The pop of the oldest entry and of the newest of sixteen. -/
theorem witness_ReturnPopsReturnAddress :
    (SpLegal (r0.setSp 0x0E#8).sp ∧ (r0.setSp 0x0E#8).sp ≠ 0x0F#8 ∧
      (15 : Fin 16).val = ((r0.setSp 0x0E#8).sp.toNat + 1) % 256) ∧
    (SpLegal (r0.setSp 0xFF#8).sp ∧ (r0.setSp 0xFF#8).sp ≠ 0x0F#8 ∧
      (0 : Fin 16).val = ((r0.setSp 0xFF#8).sp.toNat + 1) % 256) := by decide

theorem witness_NoStackEntryStops : ¬ SpLegal (r0.setSp 0x10#8).sp ∧ ¬ SpLegal (r0.setSp 0xFE#8).sp := by decide

/-- A call at the last address, made with one entry free. -/
theorem witness_CallThenReturnComesBack :
    let s := (State.withMem ((r0.setSp 0x00#8).setPc 0x0FFE#16) 0x300 [0x00#8, 0xEE#8]).placeWord 0x2300#16
    s.status = .running ∧ s.pc.toNat ≤ 0xFFE ∧ s.sp.toNat ≤ 15 ∧ (0x300#12).toNat ≤ 0xFFE ∧
    decodeWord (wordOfBytes (s.mem.read s.pc.toNat) (s.mem.read (s.pc.toNat + 1))) = .ok (.callNnn 0x300#12) ∧
    wordOfBytes (s.mem.read (0x300#12).toNat) (s.mem.read ((0x300#12).toNat + 1)) = 0x00EE#16 := by decide

theorem witness_ConstantSkips : r0.getV 0xA#4 = 0x00#8 ∧ r0.getV 0xA#4 ≠ 0x01#8 := by decide

theorem witness_RegisterSkips : r0.getV 0x1#4 = r0.getV 0x2#4 ∧
    (r0.setV 0x1#4 0xFF#8).getV 0x1#4 ≠ (r0.setV 0x1#4 0xFF#8).getV 0x2#4 := by decide

theorem witness_SelfJumpStandsStill : looping.status = .running ∧ looping.atSelfJump = true := by decide

/-- Sums 255 and 256. -/
theorem witness_AddSetsCarry : (0x1#4 : Nibble) ≠ 0xF#4 ∧
    ¬ ((r0.setV 0x1#4 0xFF#8).getV 0x1#4).toNat + ((r0.setV 0x1#4 0xFF#8).getV 0x2#4).toNat > 255 ∧
    ((r0.setV 0x1#4 0x80#8).getV 0x1#4).toNat + ((r0.setV 0x1#4 0x80#8).getV 0x1#4).toNat > 255 := by decide

/-- Equal operands, and a difference of one. -/
theorem witness_SubtractSetsNoBorrow : (0x1#4 : Nibble) ≠ 0xF#4 ∧
    (r0.getV 0x1#4).toNat ≥ (r0.getV 0x2#4).toNat ∧
    ¬ (r0.getV 0x1#4).toNat ≥ ((r0.setV 0x2#4 0x01#8).getV 0x2#4).toNat := by decide

theorem witness_ShiftsByOne : (0xE#4 : Nibble) ≠ 0xF#4 := by decide

theorem witness_RandomByteUnderMask : (r0.setRndIn [0xA7#8]).rndIn = 0xA7#8 :: [] := by decide

theorem witness_StepInputReachesVx :
    let s := (r0.setPc 0x0FFE#16).placeWord 0xCFFF#16
    s.status = .running ∧ s.pc.toNat ≤ 0xFFE ∧
    decodeWord (wordOfBytes (s.mem.read s.pc.toNat) (s.mem.read (s.pc.toNat + 1))) = .ok (.rndVxNn 0xF#4 0xFF#8) := by decide

/-- The highest `I`, and the addresses next to the stored ones. -/
theorem witness_BcdStoresDigits :
    (r0.setI 0x0FFD#16).i.toNat + 2 ≤ 0xFFF ∧ 0xFFC < (r0.setI 0x0FFD#16).i.toNat ∧
    (r0.setI 0x0300#16).i.toNat + 2 < 0x303 := by decide

theorem witness_StoreRegisters : (r0.setI 0x0FF0#16).i.toNat + (0xF#4 : Nibble).toNat ≤ 0xFFF ∧
    (0xF#4 : Nibble).toNat ≤ (0xF#4 : Nibble).toNat ∧ 0xFEF < (r0.setI 0x0FF0#16).i.toNat ∧
    (r0.setI 0x0300#16).i.toNat + (0xF#4 : Nibble).toNat < 0x310 := by decide

theorem witness_LoadRegisters : (r0.setI 0x0FFF#16).i.toNat + (0x0#4 : Nibble).toNat ≤ 0xFFF ∧
    (0x0#4 : Nibble).toNat ≤ (0x0#4 : Nibble).toNat ∧ (0x0#4 : Nibble).toNat < (0x1#4 : Nibble).toNat := by decide

theorem witness_StoreThenLoadRestores : (r0.setI 0x0FF0#16).i.toNat + (0xF#4 : Nibble).toNat ≤ 0xFFF ∧
    (0xF#4 : Nibble).toNat ≤ (0xF#4 : Nibble).toNat := by decide

/-- `F155` with `I` at the next instruction and a jump in `V0`, `V1`. -/
theorem witness_StoredBytesAreFetchedNext :
    let s := ((State.withRegs r0 [(0x0#4, 0x12#8), (0x1#4, 0x02#8)]).setI 0x0202#16).placeWord 0xF155#16
    s.status = .running ∧ s.pc.toNat + 3 ≤ 0xFFF ∧ s.i.toNat + (0x1#4 : Nibble).toNat ≤ 0xFFF ∧
    decodeWord (wordOfBytes (s.mem.read s.pc.toNat) (s.mem.read (s.pc.toNat + 1))) = .ok (.ldMemVx 0x1#4) ∧
    s.i.toNat + (0x0#4 : Nibble).toNat = s.pc.toNat + 2 ∧ (0x1#4 : Nibble).toNat = (0x0#4 : Nibble).toNat + 1 ∧
    (0x1#4 : Nibble).toNat ≤ (0x1#4 : Nibble).toNat ∧
    decodeWord (wordOfBytes (s.getV 0x0#4) (s.getV 0x1#4)) = .ok (.jpNnn 0x202#12) := by decide

/-- One set pixel, read at 0xFFF. -/
abbrev dotted : State := State.withMem (r0.setI 0x0FFF#16) 0xFFF [0x80#8]

/-- The pixel at the corner of the display, over a set and over a blank cell; an empty sprite with any `I`. -/
theorem witness_DrawXorsSprite :
    dotted.i.toNat + (0x1#4 : Nibble).toNat - 1 ≤ 0xFFF ∧
    (SpriteLit dotted 63 31 1 31 63 ∧ (State.withRow dotted 31 0x8000000000000000#64).cell 31 63 = true) ∧
    ((0x0#4 : Nibble).toNat = 0 ∧
      ¬ ∃ row col, SpriteLit (r0.setI 0xFFFF#16) 63 31 0 (Fin.val (n := 32) row) (Fin.val (n := 64) col) ∧
        (r0.setI 0xFFFF#16).cell row col = true) := by
  refine ⟨by decide, ⟨⟨0, 0, by decide, by decide, rfl, rfl, by decide⟩, by decide⟩, rfl, ?_⟩
  rintro ⟨row, col, ⟨r, c, h, -⟩, -⟩
  omega

theorem witness_DrawTwiceRestores :
    (0x0#4 : Nibble) ≠ 0xF#4 ∧ (0x1#4 : Nibble) ≠ 0xF#4 ∧ dotted.i.toNat + (0x1#4 : Nibble).toNat - 1 ≤ 0xFFF ∧
    SpriteLit dotted 63 31 1 31 63 ∧ dotted.cell 31 63 = false :=
  ⟨by decide, by decide, by decide, ⟨0, 0, by decide, by decide, rfl, rfl, by decide⟩, by decide⟩

theorem witness_ReadsReturnAndChangeNothing :
    (2047 : Fin 2048).val = 64 * (31 : Fin 32).val + (63 : Fin 64).val := by decide

/-- Key 15 down, and up. -/
theorem witness_KeySkips : ((r0.setV 0x1#4 0x0F#8).getV 0x1#4).toNat = (0xF#4 : Nibble).toNat ∧
    (State.withKey r0 15).keyDown 0xF#4 = true ∧ r0.keyDown 0xF#4 = false := by decide

/-- Only the last key down, and all from 3 on. -/
theorem witness_KeyWaitStoresLeastCode :
    ((State.withKey r0 15).keyDown 0xF#4 = true ∧
      ∀ j : Nibble, j.toNat < (0xF#4 : Nibble).toNat → (State.withKey r0 15).keyDown j = false) ∧
    ((State.withKey (State.withKey r0 3) 9).keyDown 0x3#4 = true ∧
      ∀ j : Nibble, j.toNat < (0x3#4 : Nibble).toNat → (State.withKey (State.withKey r0 3) 9).keyDown j = false) := by decide

theorem witness_KeyWaitPolls : ∀ j : Nibble, r0.keyDown j = false := by decide

theorem witness_TickCountsDown : r0.status = .running ∧ stopped.status = .halted := by decide

theorem witness_TicksReachZero : (r0.setDt 0x02#8).status = .running := by decide

theorem witness_KeyWriteSetsOneCell : (0x7#4 : Nibble) ≠ 0xF#4 := by decide

/-- Every request at once, every request but `Reset`, the two examples of R181, a refused `Reset`, and none at all. -/
theorem witness_CycleSerialisesRequests :
    ((Requests.mk (some [0x12#8, 0x00#8]) (some (0x7#4, true)) (some 0x00#8) true (some 2047) true true).reset =
        some [0x12#8, 0x00#8] ∧ ∃ t, resetImage [0x12#8, 0x00#8] = .next t) ∧
    ((Requests.mk none (some (0x7#4, true)) (some 0x00#8) true none false false).reset = none ∧
      ∃ t, stepWith 0x00#8 (keyWrite 0x7#4 true looping) = .next t) ∧
    (∃ f, stepWith 0x00#8 ((r0.setSp 0x10#8).placeWord 0x00EE#16) = .fault f) ∧
    (∃ e, resetImage (List.replicate 3585 0x00#8) = .refused e) ∧
    (2047 : Fin 2048).val = 64 * (31 : Fin 32).val + (63 : Fin 64).val := by
  refine ⟨⟨rfl, _, next_of_nextIs test_reset_image⟩, ⟨rfl, _, rfl⟩, ⟨_, rfl⟩, ?_, by decide⟩
  unfold resetImage
  rw [test_wellFormed_refuses_long_image_any]
  exact ⟨_, rfl⟩

theorem witness_ResetIsLegal : ∃ t, resetImage [0x12#8, 0x00#8] = .next t := ⟨_, next_of_nextIs test_reset_image⟩

/-- The bounds of a legal state: sixteen calls deep, the highest `PC`, halted. -/
theorem witness_Legal_bounds :
    Legal { halted .fetchOutOfRange 0x0000#16 0x10FE#16 0x10FE#16 (r0.setPc 0x10FE#16) with
      sp := 0xFF#8, stack := Vector.replicate 16 0x1000#16 } := by decide

theorem witness_StepKeepsLegal : Legal r0 ∧ ∃ t, step r0 = .next t :=
  ⟨by decide, _, next_of_nextIs test_reset_empty_image⟩

theorem witness_LegalStepAnswers : Legal r0 := by decide

theorem witness_OperationsKeepLegal : Legal r0 ∧
    ∀ image, Operation.reset [0x12#8, 0x00#8] = .reset image → image.length ≤ 3584 := by
  refine ⟨by decide, ?_⟩
  rintro image h
  cases h
  decide

/-- A running state and a halted one. -/
theorem witness_ReachableStatesStayInRange : Reachable r0 ∧
    ∃ t, Reachable t ∧ t.status = .halted :=
  ⟨.reset [] r0 rfl, _, .operate (.step 0x00#8) r0 (halted .unrecognizedOpcode 0x0000#16 0x0200#16 0x0000#16 r0)
    (.reset [] r0 rfl) (next_of_nextIs (by decide)), rfl⟩

end Sys2Proof.Machine.Tests
end

section
/-! PROOFS. Partial correctness of an outcome: a property of the next state, whenever there is one. The shared operations
of the meanings are taken apart once, for every property. -/

namespace Sys2Proof.Machine

/-- The outcome has no next state that lacks the property; a stop and a refusal have none. -/
def Ensures (P : State → Prop) (o : Host.Outcome State Fault Refusal) : Prop := ∀ t, o = .next t → P t

variable {P : State → Prop} {s t : State} {i : Instr}

theorem Ensures.next (h : P t) : Ensures P (.next t) := by
  intro u hu
  cases hu
  exact h

theorem Ensures.fault (f : Fault) : Ensures P (.fault f) := nofun

theorem Ensures.guardData {count : Nat} (hhalt : ∀ c info, c ≠ .none → P (s.halt c (encode i) info))
    (hnext : s.dataFault count = none → P t) : Ensures P (guardData i count s t) := by
  rcases guardData_cases i count s t with ⟨hnone, h⟩ | ⟨a, -, h⟩
  · rw [h]; exact .next (hnext hnone)
  · rw [h]; exact .next (hhalt _ _ (by simp))

theorem Ensures.skipOnKey {x : Nibble} {wanted : Bool} (hhalt : ∀ c info, c ≠ .none → P (s.halt c (encode i) info))
    (hskip : ∀ taken, P (s.skipIf taken)) : Ensures P (skipOnKey i x wanted s) := by
  unfold Machine.skipOnKey
  split
  · exact .next (hhalt _ _ (by simp))
  · exact .next (hskip _)

theorem Ensures.execRet (hhalt : ∀ c info, c ≠ .none → P (s.halt c (encode .ret) info))
    (hpop : ∀ w u, s.pop = some (w, u) → P (u.setPc w)) : Ensures P (execRet s) := by
  unfold Machine.execRet
  split
  · exact .next (hhalt _ _ (by simp))
  · split
    · next h => exact .next (hpop _ _ h)
    · exact .fault _

theorem Ensures.execCallNnn {nnn : Addr12} (hhalt : ∀ c info, c ≠ .none → P (s.halt c (encode (.callNnn nnn)) info))
    (hpush : ∀ u, s.push s.npc = some u → P (u.setPc (zext12 nnn))) : Ensures P (execCallNnn nnn s) := by
  unfold Machine.execCallNnn
  split
  · exact .next (hhalt _ _ (by simp))
  · split
    · next h => exact .next (hpush _ h)
    · exact .fault _

theorem Ensures.execLdVxK {x : Nibble} (hkey : ∀ b, P (s.setV x b).advance) (hwait : P s) :
    Ensures P (execLdVxK x s) := by
  unfold Machine.execLdVxK
  split
  · exact .next (hkey _)
  · have hsame : s.setPc (s.npc - 2#16) = s := by simp [State.setPc, State.npc]
    exact .next (hsame.symm ▸ hwait)

end Sys2Proof.Machine
end

section
/-! PROOFS. Legal states (spec 10_state.md R24): fault entry and every update keep them, so every instruction, every step and
every operation does. -/

namespace Sys2Proof.Machine

variable {s t : State}

/-! ## Arithmetic of addresses -/

theorem State.npc_toNat (h : s.pc.toNat ≤ 0xFFE) : s.npc.toNat = s.pc.toNat + 2 := by
  simp only [State.npc, BitVec.toNat_add, BitVec.toNat_ofNat]
  omega

theorem zext12_toNat (nnn : Addr12) : (zext12 nnn).toNat = nnn.toNat := by
  simp only [zext12, BitVec.toNat_setWidth]
  omega

theorem zext12_add_zext8_toNat (nnn : Addr12) (b : Byte) : (zext12 nnn + zext8 b).toNat = nnn.toNat + b.toNat := by
  simp only [zext8, BitVec.toNat_add, zext12_toNat, BitVec.toNat_setWidth]
  omega

/-! ## The state an instruction runs in -/

/-- A legal RUNNING state whose `PC` a fetch accepts: what `exec` starts from inside a step. -/
structure Ready (s : State) : Prop where
  legal     : Legal s
  running   : s.status = .running
  fetchable : s.pc.toNat ≤ 0xFFE

/-! The updates that leave the constrained parts alone keep such a state. -/

theorem Ready.setV (h : Ready s) (x : Nibble) (b : Byte) : Ready (s.setV x b) := ⟨h.legal, h.running, h.fetchable⟩
theorem Ready.setI (h : Ready s) (w : Word) : Ready (s.setI w) := ⟨h.legal, h.running, h.fetchable⟩
theorem Ready.setDt (h : Ready s) (b : Byte) : Ready (s.setDt b) := ⟨h.legal, h.running, h.fetchable⟩
theorem Ready.setSt (h : Ready s) (b : Byte) : Ready (s.setSt b) := ⟨h.legal, h.running, h.fetchable⟩
theorem Ready.setFb (h : Ready s) (f : Vector FbRow 32) : Ready (s.setFb f) := ⟨h.legal, h.running, h.fetchable⟩
theorem Ready.setRegs (h : Ready s) (v : Vector Byte 16) : Ready { s with v } := ⟨h.legal, h.running, h.fetchable⟩
theorem Ready.loadRegs (h : Ready s) (x : Nibble) : Ready (s.loadRegs x) := h.setRegs (s.loadedRegs x)

theorem Ready.takeRnd (h : Ready s) : Ready s.takeRnd := by
  unfold State.takeRnd
  split <;> exact ⟨h.legal, h.running, h.fetchable⟩

theorem Legal.setMem (h : Legal s) {m : Memory} (hm : m.wf) : Legal (s.setMem m) := ⟨hm, h.2⟩

/-- Bytes stored once their range check has passed. -/
theorem Ready.store (h : Ready s) {count : Nat} {ws : List Byte} (hcount : s.dataFault count = none)
    (hlen : ws.length = count) : Ready (s.setMem (s.mem.writeBytes (s.dataAddr 0) ws)) := by
  obtain ⟨hwf, -⟩ := h.legal
  refine ⟨h.legal.setMem ?_, h.running, h.fetchable⟩
  rcases (s.dataFault_eq_none count).mp hcount with hzero | hrange
  · rw [List.length_eq_zero_iff.mp (hlen.trans hzero)]
    exact hwf
  · refine Memory.writeBytes_wf hwf ws ?_
    have hi := s.i.isLt
    simp only [State.dataAddr, Config.memSize]
    omega

/-! ## The end of an instruction: fault entry, or a new `PC` -/

/-- Fault entry keeps a legal state legal, whatever it records (60_exceptions.md R152). -/
theorem Legal.halt (h : Legal s) {c : FaultCause} (hc : c ≠ .none) (opcode info : Word) :
    Legal (s.halt c opcode info) := by
  obtain ⟨hmem, hpc, hsp, hstack, -, -⟩ := h
  exact ⟨hmem, hpc, hsp, hstack, nofun, fun _ => ⟨hc, rfl⟩⟩

theorem Ready.setPc (h : Ready s) {w : Word} (hw : w.toNat ≤ 0x10FE) : Legal (s.setPc w) := by
  obtain ⟨hmem, -, hsp, hstack, hrun, -⟩ := h.legal
  have hstatus : (s.setPc w).status ≠ .halted := by simp [h.running]
  exact ⟨hmem, hw, hsp, hstack, hrun, fun e => absurd e hstatus⟩

theorem Ready.advance (h : Ready s) : Legal s.advance := by
  have hpc := h.fetchable
  have hnpc := State.npc_toNat hpc
  exact h.setPc (by omega)

theorem Ready.skipIf (h : Ready s) (taken : Bool) : Legal (s.skipIf taken) := by
  have hpc := h.fetchable
  have hnpc := State.npc_toNat hpc
  refine h.setPc ?_
  split
  · rw [BitVec.toNat_add, hnpc, BitVec.toNat_ofNat]
    omega
  · omega

theorem Ready.jump (h : Ready s) (nnn : Addr12) : Legal (s.setPc (zext12 nnn)) := by
  have hn := nnn.isLt
  exact h.setPc (by rw [zext12_toNat]; omega)

theorem Ready.jumpV0 (h : Ready s) (nnn : Addr12) (b : Byte) : Legal (s.setPc (zext12 nnn + zext8 b)) := by
  have hn := nnn.isLt
  have hb := b.isLt
  exact h.setPc (by rw [zext12_add_zext8_toNat]; omega)

/-! ## The call stack -/

/-- Of the entries held after a push, one is the address pushed and the others were held before. -/
theorem entryHeld_after_push {sp : Byte} {j : Fin 16} (hsp : sp.toNat < 16) (h : EntryHeld (sp - 1#8) j) :
    j.val = sp.toNat ∨ sp.toNat < j.val := by
  have hj := j.isLt
  rcases h with h | h
  · have : sp = 0#8 := by bv_omega
    subst this
    simp only [BitVec.toNat_ofNat]
    omega
  · bv_omega

/-- The entries held after a pop were held before it, and so was the popped one. -/
theorem entryHeld_before_pop {sp : Byte} {j : Fin 16} (hsp : SpLegal sp) (h : (sp + 1#8).toNat ≤ j.val) :
    EntryHeld sp j := by
  rcases hsp with hlow | hfull
  · right
    rw [BitVec.toNat_add, BitVec.toNat_ofNat] at h
    omega
  · exact .inl hfull

theorem Ready.push (h : Ready s) {u : State} (hu : s.push s.npc = some u) : Ready u := by
  obtain ⟨hlt, rfl⟩ := s.push_eq_some.mp hu
  obtain ⟨hmem, hpc, -, hstack, hrun, hhalt⟩ := h.legal
  refine ⟨⟨hmem, hpc, ?_, fun j hj => ?_, hrun, hhalt⟩, h.running, h.fetchable⟩
  · show SpLegal (s.sp - 1#8)
    by_cases h0 : s.sp = 0#8
    · exact .inr (by rw [h0]; rfl)
    · left
      bv_omega
  · rcases entryHeld_after_push hlt hj with hnew | hold
    · have hentry : (s.stack.set s.sp.toNat s.npc hlt)[j.val] = s.npc := by simp [hnew]
      have hnpc := State.npc_toNat h.fetchable
      have hfetch := h.fetchable
      rw [State.setSp_stack, State.setStack_stack, Fin.getElem_fin, hentry]
      omega
    · have hentry : (s.stack.set s.sp.toNat s.npc hlt)[j.val] = s.stack[j] := Vector.getElem_set_ne _ _ (by omega)
      rw [State.setSp_stack, State.setStack_stack, Fin.getElem_fin, hentry]
      exact hstack j (.inr hold)

theorem Ready.pop (h : Ready s) {w : Word} {u : State} (hu : s.pop = some (w, u)) : Ready u ∧ w.toNat ≤ 0x1000 := by
  obtain ⟨hlt, rfl, rfl⟩ := s.pop_eq_some.mp hu
  obtain ⟨hmem, hpc, hsp, hstack, hrun, hhalt⟩ := h.legal
  have hsp' : SpLegal (s.sp + 1#8) := .inl (Nat.le_of_lt_succ hlt)
  refine ⟨⟨⟨hmem, hpc, hsp', fun j hj => hstack j ?_, hrun, hhalt⟩, h.running, h.fetchable⟩, ?_⟩
  · refine entryHeld_before_pop hsp ?_
    rcases hj with hfull | hlow
    · have hfull : s.sp + 1#8 = 0xFF#8 := hfull
      rw [hfull] at hlt
      exact absurd hlt (by decide)
    · exact Nat.le_of_lt hlow
  · exact (hstack ⟨_, hlt⟩ (entryHeld_before_pop hsp (Nat.le_refl _))).2

/-! ## Instructions -/

theorem Ready.halt (h : Ready s) (i : Instr) (c : FaultCause) (info : Word) (hc : c ≠ .none) :
    Legal (s.halt c (encode i) info) := h.legal.halt hc _ _

/-- Every instruction that answers leaves a legal state. -/
theorem exec_ensures_legal (i : Instr) (h : Ready s) : Ensures Legal (exec i s) := by
  cases i with
  | cls => exact .next (h.setFb _).advance
  | ret =>
    refine .execRet (h.halt _) fun w u hu => ?_
    obtain ⟨hready, hw⟩ := h.pop hu
    exact hready.setPc (by omega)
  | jpNnn nnn => exact .next (h.jump nnn)
  | callNnn nnn => exact .execCallNnn (h.halt _) fun u hu => (h.push hu).jump nnn
  | seVxNn x nn => exact .next (h.skipIf _)
  | sneVxNn x nn => exact .next (h.skipIf _)
  | seVxVy x y => exact .next (h.skipIf _)
  | ldVxNn x nn => exact .next (h.setV _ _).advance
  | addVxNn x nn => exact .next (h.setV _ _).advance
  | ldVxVy x y => exact .next (h.setV _ _).advance
  | orVxVy x y => exact .next (h.setV _ _).advance
  | andVxVy x y => exact .next (h.setV _ _).advance
  | xorVxVy x y => exact .next (h.setV _ _).advance
  | addVxVy x y => exact .next ((h.setV _ _).setV _ _).advance
  | subVxVy x y => exact .next ((h.setV _ _).setV _ _).advance
  | shrVx x y => exact .next ((h.setV _ _).setV _ _).advance
  | subnVxVy x y => exact .next ((h.setV _ _).setV _ _).advance
  | shlVx x y => exact .next ((h.setV _ _).setV _ _).advance
  | sneVxVy x y => exact .next (h.skipIf _)
  | ldINnn nnn => exact .next (h.setI _).advance
  | jpV0Nnn nnn => exact .next (h.jumpV0 nnn _)
  | rndVxNn x nn => exact .next (h.takeRnd.setV _ _).advance
  | drwVxVyN x y n => exact .guardData (h.halt _) fun _ => ((h.setFb _).setV _ _).advance
  | skpVx x => exact .skipOnKey (h.halt _) h.skipIf
  | sknpVx x => exact .skipOnKey (h.halt _) h.skipIf
  | ldVxDt x => exact .next (h.setV _ _).advance
  | ldVxK x => exact .execLdVxK (fun b => (h.setV _ b).advance) h.legal
  | ldDtVx x => exact .next (h.setDt _).advance
  | ldStVx x => exact .next (h.setSt _).advance
  | addIVx x => exact .next (h.setI _).advance
  | ldFVx x => exact .next (h.setI _).advance
  | ldBVx x => exact .guardData (h.halt _) fun hrange => (h.store hrange rfl).advance
  | ldMemVx x => exact .guardData (h.halt _) fun hrange => (h.store hrange (s.regsUpTo_length x)).advance
  | ldVxMem x => exact .guardData (h.halt _) fun _ => (h.loadRegs x).advance

/-! ## Steps, operations and reachable states -/

theorem step_ensures_legal (h : Legal s) : Ensures Legal (step s) := by
  rcases step_cases s with ⟨-, hstep⟩ | ⟨-, -, hstep⟩ | ⟨w, e, -, -, -, hstep⟩ | ⟨w, i, hrun, hfetch, -, hstep⟩
  · exact hstep ▸ .next h
  · exact hstep ▸ .next (h.halt (by simp) _ _)
  · exact hstep ▸ .next (h.halt (by simp) _ _)
  · obtain ⟨hpc, -⟩ := s.fetch_eq_ok.mp hfetch
    exact hstep ▸ exec_ensures_legal i ⟨h, hrun, hpc⟩

/-- Settles O56: in each of the cases of a step the state it leaves is legal, for an instruction by
`exec_ensures_legal`. -/
theorem stepKeepsLegal : Obligations.StepKeepsLegal := fun _ _ h => step_ensures_legal h _

theorem Legal.reset : Legal State.reset := by
  refine ⟨Memory.nil_wf, by decide, by decide, fun j hj => ?_, fun _ => rfl, nofun⟩
  rcases hj with hfull | hlow
  · exact absurd hfull (by decide)
  · have habove : 15 < j.val := hlow
    omega

theorem resetImage_ensures_legal (image : List Byte) : Ensures Legal (resetImage image) := by
  unfold resetImage
  split
  · next hlen =>
    have hlen : image.length ≤ 3584 := of_decide_eq_true hlen
    refine .next (Legal.reset.setMem (Memory.writeBytes_wf Memory.nil_wf image ?_))
    simp only [Config.progBase, Config.memSize]
    omega
  · exact nofun

/-- Settles O55: no stack entry is held at reset, and an accepted image fits between 0x200 and 0xFFF. -/
theorem resetIsLegal : Obligations.ResetIsLegal := ⟨Legal.reset, resetImage_ensures_legal⟩

theorem stepWith_ensures_legal (rnd : Byte) (h : Legal s) : Ensures Legal (stepWith rnd s) := by
  have hstep : Ensures Legal (step (s.setRndIn (rnd :: s.rndIn))) := step_ensures_legal h
  unfold stepWith
  split
  · next u hu => exact .next (hstep u hu)
  · exact nofun
  · exact nofun

theorem Legal.tick (h : Legal s) : Legal (tick s) := by
  unfold Machine.tick
  split <;> exact h

/-- Every operation that answers keeps a legal state legal. -/
theorem operate_ensures_legal (op : Operation) (h : Legal s) : Ensures Legal (operate op s) := by
  cases op with
  | reset image => exact resetImage_ensures_legal image
  | step rnd => exact stepWith_ensures_legal rnd h
  | tick => exact .next h.tick
  | keyWrite k v => exact .next h
  | fbRead i => exact .next h
  | soundRead => exact .next h
  | statusRead => exact .next h

theorem Reachable.legal (h : Reachable s) : Legal s := by
  induction h with
  | reset image t ht => exact resetImage_ensures_legal image t ht
  | operate op s t _ ht ih => exact operate_ensures_legal op ih t ht

theorem Legal.halted_iff (h : Legal s) : s.status = .halted ↔ s.fault.cause ≠ .none := by
  obtain ⟨-, -, -, -, hrun, hhalt⟩ := h
  cases hs : s.status with
  | running => simp [hrun hs, FaultRecord.clear]
  | halted => simpa using (hhalt hs).1

/-- Settles O59: a reachable state is legal, by induction on how it is reached. -/
theorem reachableStatesStayInRange : Obligations.ReachableStatesStayInRange := by
  intro s hs
  obtain ⟨-, hpc, hsp, hstack, -, -⟩ := hs.legal
  exact ⟨hpc, hsp, hstack, hs.legal.halted_iff⟩

end Sys2Proof.Machine
end

section
/-! PROOFS. The registers an instruction leaves alone (spec 10_state.md R11, R12). -/

namespace Sys2Proof.Machine

/-- The register reads as it does in `s`. -/
def KeepsReg (r : Nibble) (s t : State) : Prop := t.getV r = s.getV r

variable {s : State} {r x : Nibble}

theorem keepsReg_halt (r : Nibble) (s : State) (i : Instr) (c : FaultCause) (info : Word) (_ : c ≠ .none) :
    KeepsReg r s (s.halt c (encode i) info) := rfl

theorem keepsReg_setV (h : r ≠ x) (b : Byte) : KeepsReg r s (s.setV x b).advance :=
  s.getV_setV_ne b h

theorem keepsReg_loadVThenFlag (h : r ≠ x) (hvf : r ≠ vf) (b flag : Byte) :
    KeepsReg r s (s.loadVThenFlag x b flag) :=
  ((s.setV x b).getV_setV_ne flag hvf).trans (s.getV_setV_ne b h)

theorem keepsReg_flagThenLoadV (h : r ≠ x) (hvf : r ≠ vf) (b flag : Byte) :
    KeepsReg r s (s.flagThenLoadV x b flag) :=
  ((s.setV vf flag).getV_setV_ne b h).trans (s.getV_setV_ne flag hvf)

theorem keepsReg_loadRegs (h : ¬ r.toNat ≤ x.toNat) : KeepsReg r s (s.loadRegs x).advance := by
  unfold KeepsReg
  rw [State.advance_getV, State.getV_loadRegs, if_neg h]

theorem keepsReg_pop {w : Word} {u : State} (h : s.pop = some (w, u)) : KeepsReg r s (u.setPc w) := by
  obtain ⟨-, -, rfl⟩ := s.pop_eq_some.mp h
  rfl

theorem keepsReg_push {w w' : Word} {u : State} (h : s.push w = some u) : KeepsReg r s (u.setPc w') := by
  obtain ⟨-, rfl⟩ := s.push_eq_some.mp h
  rfl

/-- No instruction changes a register that is neither its destination nor the flag it writes. -/
theorem exec_ensures_keepsReg (i : Instr) (hdest : isDestination i r = false) (hflag : r = vf → writesFlag i = false) :
    Ensures (KeepsReg r s) (exec i s) := by
  have hne {x : Nibble} (h : (r == x) = false) : r ≠ x := beq_eq_false_iff_ne.mp h
  have hvf : writesFlag i = true → r ≠ vf := fun hw e => by simp [hflag e] at hw
  cases i with
  | cls => exact .next rfl
  | ret => exact .execRet (keepsReg_halt r s _) fun _ _ => keepsReg_pop
  | jpNnn nnn => exact .next rfl
  | callNnn nnn => exact .execCallNnn (keepsReg_halt r s _) fun _ => keepsReg_push
  | seVxNn x nn => exact .next rfl
  | sneVxNn x nn => exact .next rfl
  | seVxVy x y => exact .next rfl
  | ldVxNn x nn => exact .next (keepsReg_setV (hne hdest) _)
  | addVxNn x nn => exact .next (keepsReg_setV (hne hdest) _)
  | ldVxVy x y => exact .next (keepsReg_setV (hne hdest) _)
  | orVxVy x y => exact .next (keepsReg_setV (hne hdest) _)
  | andVxVy x y => exact .next (keepsReg_setV (hne hdest) _)
  | xorVxVy x y => exact .next (keepsReg_setV (hne hdest) _)
  | addVxVy x y => exact .next (keepsReg_loadVThenFlag (hne hdest) (hvf rfl) _ _)
  | subVxVy x y => exact .next (keepsReg_loadVThenFlag (hne hdest) (hvf rfl) _ _)
  | shrVx x y => exact .next (keepsReg_flagThenLoadV (hne hdest) (hvf rfl) _ _)
  | subnVxVy x y => exact .next (keepsReg_loadVThenFlag (hne hdest) (hvf rfl) _ _)
  | shlVx x y => exact .next (keepsReg_flagThenLoadV (hne hdest) (hvf rfl) _ _)
  | sneVxVy x y => exact .next rfl
  | ldINnn nnn => exact .next rfl
  | jpV0Nnn nnn => exact .next rfl
  | rndVxNn x nn => exact .next ((keepsReg_setV (s := s.takeRnd) (hne hdest) _).trans (s.takeRnd_getV r))
  | drwVxVyN x y n => exact .guardData (keepsReg_halt r s _) fun _ =>
    (keepsReg_setV (s := s.setFb _) (hvf rfl) _).trans (s.setFb_getV _ r)
  | skpVx x => exact .skipOnKey (keepsReg_halt r s _) fun _ => rfl
  | sknpVx x => exact .skipOnKey (keepsReg_halt r s _) fun _ => rfl
  | ldVxDt x => exact .next (keepsReg_setV (hne hdest) _)
  | ldVxK x => exact .execLdVxK (fun b => keepsReg_setV (hne hdest) b) rfl
  | ldDtVx x => exact .next rfl
  | ldStVx x => exact .next rfl
  | addIVx x => exact .next rfl
  | ldFVx x => exact .next rfl
  | ldBVx x => exact .guardData (keepsReg_halt r s _) fun _ => rfl
  | ldMemVx x => exact .guardData (keepsReg_halt r s _) fun _ => rfl
  | ldVxMem x => exact .guardData (keepsReg_halt r s _) fun _ => keepsReg_loadRegs (of_decide_eq_false hdest)

/-- Settles O19: the instruction is taken apart once, in `exec_ensures_keepsReg`. -/
theorem registersChangeOnlyAsDestination : Obligations.RegistersChangeOnlyAsDestination :=
  fun i _ t _ h hdest hflag => exec_ensures_keepsReg i hdest hflag t h

end Sys2Proof.Machine
end

section
/-! PROOFS. The random input (spec 10_state.md R22): an instruction other than `Cxnn` neither reads nor changes the bytes
handed over, so replacing them before it or after it is the same. -/

namespace Sys2Proof.Machine

/-- The outcome with the next state, if any, changed. -/
def mapNext (f : State → State) : Host.Outcome State Fault Refusal → Host.Outcome State Fault Refusal
  | .next t => .next (f t)
  | .fault r => .fault r
  | .refused r => .refused r

/-- `stepWith` hands its byte over, steps, and puts the bytes back. -/
theorem stepWith_eq_mapNext (rnd : Byte) (s : State) :
    stepWith rnd s = mapNext (·.setRndIn s.rndIn) (step (s.setRndIn (rnd :: s.rndIn))) := by
  unfold stepWith
  cases step (s.setRndIn (rnd :: s.rndIn)) <;> rfl

theorem mapNext_setRndIn_setRndIn (l l' : List Byte) (o : Host.Outcome State Fault Refusal) :
    mapNext (·.setRndIn l) (mapNext (·.setRndIn l') o) = mapNext (·.setRndIn l) o := by
  cases o <;> rfl

variable (s : State) (l : List Byte)

/-! ## The shared operations -/

theorem guardData_setRndIn {i : Instr} {count : Nat} {t t' : State} (ht : t' = t.setRndIn l) :
    guardData i count (s.setRndIn l) t' = mapNext (·.setRndIn l) (guardData i count s t) := by
  subst ht
  have hfault : (s.setRndIn l).dataFault count = s.dataFault count := rfl
  unfold guardData
  rw [hfault]
  split <;> rfl

theorem skipOnKey_setRndIn (i : Instr) (x : Nibble) (wanted : Bool) :
    skipOnKey i x wanted (s.setRndIn l) = mapNext (·.setRndIn l) (skipOnKey i x wanted s) := by
  unfold skipOnKey
  rw [State.setRndIn_getV]
  split <;> rfl

theorem State.pop_setRndIn : (s.setRndIn l).pop = s.pop.map fun p => (p.1, p.2.setRndIn l) := by
  unfold State.pop
  rw [State.setRndIn_sp]
  split <;> rfl

theorem State.push_setRndIn (w : Word) : (s.setRndIn l).push w = (s.push w).map (·.setRndIn l) := by
  unfold State.push
  rw [State.setRndIn_sp]
  split <;> rfl

theorem execRet_setRndIn : execRet (s.setRndIn l) = mapNext (·.setRndIn l) (execRet s) := by
  have hempty : (s.setRndIn l).stackEmpty = s.stackEmpty := rfl
  unfold execRet
  rw [hempty, s.pop_setRndIn l]
  split
  · rfl
  · cases s.pop <;> rfl

theorem execCallNnn_setRndIn (nnn : Addr12) :
    execCallNnn nnn (s.setRndIn l) = mapNext (·.setRndIn l) (execCallNnn nnn s) := by
  have hfull : (s.setRndIn l).stackFull = s.stackFull := rfl
  have hnpc : (s.setRndIn l).npc = s.npc := rfl
  unfold execCallNnn
  rw [hfull, hnpc, s.push_setRndIn l]
  split
  · rfl
  · cases s.push s.npc <;> rfl

theorem execLdVxK_setRndIn (x : Nibble) : execLdVxK x (s.setRndIn l) = mapNext (·.setRndIn l) (execLdVxK x s) := by
  have hkey : (s.setRndIn l).firstKey = s.firstKey := rfl
  unfold execLdVxK
  rw [hkey]
  cases s.firstKey <;> rfl

/-! ## Instructions and steps -/

/-- Only `Cxnn` reads or changes the bytes handed over. -/
theorem exec_setRndIn (i : Instr) (h : ∀ x nn, i ≠ .rndVxNn x nn) :
    exec i (s.setRndIn l) = mapNext (·.setRndIn l) (exec i s) := by
  cases i with
  | rndVxNn x nn => exact absurd rfl (h x nn)
  | ret => exact execRet_setRndIn s l
  | callNnn nnn => exact execCallNnn_setRndIn s l nnn
  | drwVxVyN x y n => exact guardData_setRndIn s l rfl
  | skpVx x => exact skipOnKey_setRndIn s l _ x true
  | sknpVx x => exact skipOnKey_setRndIn s l _ x false
  | ldVxK x => exact execLdVxK_setRndIn s l x
  | ldBVx x => exact guardData_setRndIn s l rfl
  | ldMemVx x => exact guardData_setRndIn s l rfl
  | ldVxMem x => exact guardData_setRndIn s l rfl
  | cls => rfl
  | jpNnn nnn => rfl
  | seVxNn x nn => rfl
  | sneVxNn x nn => rfl
  | seVxVy x y => rfl
  | ldVxNn x nn => rfl
  | addVxNn x nn => rfl
  | ldVxVy x y => rfl
  | orVxVy x y => rfl
  | andVxVy x y => rfl
  | xorVxVy x y => rfl
  | addVxVy x y => rfl
  | subVxVy x y => rfl
  | shrVx x y => rfl
  | subnVxVy x y => rfl
  | shlVx x y => rfl
  | sneVxVy x y => rfl
  | ldINnn nnn => rfl
  | jpV0Nnn nnn => rfl
  | ldVxDt x => rfl
  | ldDtVx x => rfl
  | ldStVx x => rfl
  | addIVx x => rfl
  | ldFVx x => rfl

/-- So does a step whose fetched word is no `Cxnn`. -/
theorem step_setRndIn (h : ∀ w x nn, s.fetch = .ok w → decodeWord w ≠ .ok (.rndVxNn x nn)) :
    step (s.setRndIn l) = mapNext (·.setRndIn l) (step s) := by
  have hfetch : (s.setRndIn l).fetch = s.fetch := rfl
  unfold step
  rw [State.setRndIn_status, hfetch]
  cases s.status with
  | halted => rfl
  | running =>
    cases hw : s.fetch with
    | error a => rfl
    | ok w =>
      cases hi : decodeWord w with
      | error e => simp only [hi]; rfl
      | ok i =>
        simp only [hi]
        exact exec_setRndIn s l i fun x nn e => h w x nn hw (e ▸ hi)

/-- Settles O17: the byte handed over is put back after the step unread. -/
theorem randomInputReachesOnlyRnd : Obligations.RandomInputReachesOnlyRnd := by
  intro s b b' h
  rw [stepWith_eq_mapNext, stepWith_eq_mapNext, step_setRndIn s _ h, step_setRndIn s _ h,
    mapNext_setRndIn_setRndIn, mapNext_setRndIn_setRndIn]

end Sys2Proof.Machine
end

section
/-! PROOFS. The reset state, field by field (spec 10_state.md R25), and the stops of log 3. -/

namespace Sys2Proof.Machine

/-- The memory of the reset state: the font, and zeros around it. -/
theorem reset_mem_read (a : Nat) :
    State.reset.mem.read a = if 0x100 ≤ a ∧ a ≤ 0x14F then fontByte (a - 0x100) else 0x00#8 := by
  show Memory.unlisted a = _
  split
  · next h =>
    obtain ⟨j, rfl⟩ := Nat.exists_eq_add_of_le h.1
    rw [Memory.unlisted_font (by omega), Nat.add_sub_cancel_left]
  · next h => exact Memory.unlisted_of_not_font (by omega)

/-- Settles O6: every field but memory, `reset_mem_read`, stands in the definition. -/
theorem resetStateValues : Obligations.ResetStateValues := by
  refine ⟨fun r => ?_, rfl, rfl, rfl, fun j => ?_, rfl, rfl, fun c => ?_, fun row col => ?_, rfl, rfl,
    reset_mem_read, rfl, rfl⟩
  · simp [State.getV, State.reset]
  · simp [State.reset]
  · simp [State.keyDown, State.reset]
  · simp [State.cell, State.reset]

/-- Settles O24: no entry of `STACK` is selected, before the push or after the pop. -/
theorem noStackEntryStops : Obligations.NoStackEntryStops := by
  intro nnn s h
  obtain ⟨hlow, hfull⟩ := not_or.mp h
  have hlt := s.sp.isLt
  have hne : s.sp.toNat ≠ 255 := fun e => hfull (BitVec.eq_of_toNat_eq e)
  have hpush : s.push s.npc = none := s.push_eq_none.mpr (by omega)
  have hpop : s.pop = none := s.pop_eq_none.mpr (by rw [BitVec.toNat_add, BitVec.toNat_ofNat]; omega)
  have hnotFull : s.stackFull = false := beq_eq_false_iff_ne.mpr hfull
  have hnotEmpty : s.stackEmpty = false := beq_eq_false_iff_ne.mpr fun e => hlow (by simp [e])
  simp [execCallNnn, execRet, hnotFull, hnotEmpty, hpush, hpop]

end Sys2Proof.Machine
end

section
/-! PROOFS. Bytes of memory that a store puts where the next step fetches (spec 20_memory.md R51), and the reads at the
boundary (20_memory.md R53). -/

namespace Sys2Proof.Machine

variable {s : State} {x r : Nibble} {i : Instr}

/-- A running machine whose two bytes at `PC` decode executes the instruction they decode to. -/
theorem step_eq_exec (hrun : s.status = .running) (hpc : s.pc.toNat ≤ 0xFFE)
    (hdec : decodeWord (wordOfBytes (s.mem.read s.pc.toNat) (s.mem.read (s.pc.toNat + 1))) = .ok i) :
    step s = exec i s := by
  have hfetch := s.fetch_eq_ok.mpr ⟨hpc, rfl⟩
  simp only [step, hrun, hfetch, hdec]

/-! ## LD [I], Vx (42_index_memory.md R114) -/

/-- Memory after `V0..Vx` have gone to `I, ..., I + x`. -/
def State.memWithRegs (s : State) (x : Nibble) : Memory := s.mem.writeBytes (s.dataAddr 0) (s.regsUpTo x)

theorem exec_ldMemVx_of_inRange (hrange : s.i.toNat + x.toNat ≤ 0xFFF) :
    exec (.ldMemVx x) s = .next (s.setMem (s.memWithRegs x)).advance := by
  have hnone : s.dataFault (x.toNat + 1) = none := (s.dataFault_eq_none _).mpr (.inr hrange)
  simp only [exec_ldMemVx, execLdMemVx, guardData, hnone, State.memWithRegs]

/-- The cell at `I + r` holds `Vr`, for each register stored. -/
theorem State.memWithRegs_read (hr : r.toNat ≤ x.toNat) :
    (s.memWithRegs x).read (s.i.toNat + r.toNat) = s.getV r := by
  simp [State.memWithRegs, State.dataAddr, Memory.read_writeBytes, State.regsUpTo_getElem?, hr, State.getV]

/-- Settles O42: the step after the store finds `Vr` and `Vr'` in the two cells at its `PC`. -/
theorem storedBytesAreFetchedNext : Obligations.StoredBytesAreFetchedNext := by
  intro s x r r' i hrun hpc hrange hstore hr hr' hx hnext
  have hnpc : s.npc.toNat = s.i.toNat + r.toNat := by rw [State.npc_toNat (by omega), hr]
  have hhi : (s.memWithRegs x).read s.npc.toNat = s.getV r := by
    rw [hnpc, State.memWithRegs_read (by omega)]
  have hlo : (s.memWithRegs x).read (s.npc.toNat + 1) = s.getV r' := by
    rw [hnpc, Nat.add_assoc, ← hr', State.memWithRegs_read hx]
  refine ⟨(s.setMem (s.memWithRegs x)).advance, ?_, ?_⟩
  · rw [step_eq_exec hrun (by omega) hstore, exec_ldMemVx_of_inRange hrange]
  · refine step_eq_exec hrun ?_ ?_
    · show s.npc.toNat ≤ 0xFFE
      omega
    · show decodeWord (wordOfBytes ((s.memWithRegs x).read s.npc.toNat)
        ((s.memWithRegs x).read (s.npc.toNat + 1))) = .ok i
      rw [hhi, hlo, hnext]

/-! ## The reads -/

/-- Sound is active exactly when `ST` is not zero, whatever `STATUS` is (60_exceptions.md R158). -/
theorem soundActive_eq_decide (s : State) : soundActive s = decide (s.st ≠ 0x00#8) := by
  by_cases h : s.st = 0x00#8 <;> simp [soundActive, h]

/-- Settles O46: the display is addressed row by row, `fbRead_eq_cell`; the rest stands in the definitions. -/
theorem readsReturnAndChangeNothing : Obligations.ReadsReturnAndChangeNothing := by
  intro s row col i hi
  have hcell : reply (.fbRead i) s = .cell (s.cell row col) := congrArg Reply.cell (fbRead_eq_cell s i row col hi)
  have hsound : reply .soundRead s = .sound s.st (decide (s.st ≠ 0x00#8)) :=
    congrArg (Reply.sound s.st) (soundActive_eq_decide s)
  exact ⟨hcell, rfl, hsound, rfl, rfl, rfl, ⟨rfl, rfl⟩, rfl, rfl, rfl, rfl, rfl, rfl, rfl⟩

end Sys2Proof.Machine
end

section
/-! PROOFS. The codec (spec 30_encoding.md): decoding and encoding invert each other, each row of the opcode map selects the
words of one instruction, and the rest of the words are not instructions. -/

namespace Sys2Proof

variable {w p : Word} {op x y n : Nibble} {nn : Byte} {i : Instr}

/-! ## Encoding, then decoding -/

/-- Settles O1: each word is read by evaluating the decoder. -/
theorem decodeReadsSpecWords : Obligations.DecodeReadsSpecWords := by
  unfold Obligations.DecodeReadsSpecWords
  decide

/-- Every instruction is decoded from its own word: the fields of the word are the operands, and `op` with the secondary
selector picks the constructor. -/
theorem decodeWord_encode (i : Instr) : decodeWord (encode i) = .ok i := by
  cases i with
  | cls | ret => rfl
  | jpNnn _ | callNnn _ | ldINnn _ | jpV0Nnn _ => simp [encode, decodeWord]
  | seVxNn _ _ | sneVxNn _ _ | ldVxNn _ _ | addVxNn _ _ | rndVxNn _ _ => simp [encode, decodeWord]
  | seVxVy _ _ | sneVxVy _ _ | drwVxVyN _ _ _ => simp [encode, decodeWord]
  | ldVxVy _ _ | orVxVy _ _ | andVxVy _ _ | xorVxVy _ _ | addVxVy _ _ | subVxVy _ _ | shrVx _ _ | subnVxVy _ _
  | shlVx _ _ => simp [encode, decodeWord, decodeFamily8]
  | skpVx _ | sknpVx _ => simp [encode, decodeWord, decodeFamilyE]
  | ldVxDt _ | ldVxK _ | ldDtVx _ | ldStVx _ | addIVx _ | ldFVx _ | ldBVx _ | ldMemVx _ | ldVxMem _ =>
    simp [encode, decodeWord, decodeFamilyF]

/-- Settles O2: the two bytes of the word are put together again, and `decodeWord_encode` reads it. -/
theorem decodeInvertsEncode : Obligations.DecodeInvertsEncode := by
  intro i rest
  refine decode_eq_ok.mpr ⟨wordHi (encode i), wordLo (encode i), rfl, ?_⟩
  rw [wordOfBytes_hi_lo, decodeWord_encode]

/-! ## Decoding, then encoding -/

/-- What the decoder answers for the word, if it answers an instruction, encodes to the word. -/
def ReadsBack (w : Word) (r : Except DecodeError Instr) : Prop := ∀ i, r = .ok i → encode i = w

theorem ReadsBack.ok (h : encode i = w) : ReadsBack w (.ok i) := by
  intro j hj
  cases hj
  exact h

theorem ReadsBack.error (e : DecodeError) : ReadsBack w (.error e) := nofun

/-! A word is packed from its literal fields, known by their values, and its operand fields. -/

theorem packNNN_of_op (hop : (fieldOp w).toNat = op.toNat) : packNNN op (fieldNnn w) = w := by
  rw [← BitVec.eq_of_toNat_eq hop, packNNN_fields]

theorem packXNN_of_op (hop : (fieldOp w).toNat = op.toNat) : packXNN op (fieldX w) (fieldNn w) = w := by
  rw [← BitVec.eq_of_toNat_eq hop, packXNN_fields]

theorem packXYN_of_op (hop : (fieldOp w).toNat = op.toNat) : packXYN op (fieldX w) (fieldY w) (fieldN w) = w := by
  rw [← BitVec.eq_of_toNat_eq hop, packXYN_fields]

theorem packXYN_of_op_n (hop : (fieldOp w).toNat = op.toNat) (hn : (fieldN w).toNat = n.toNat) :
    packXYN op (fieldX w) (fieldY w) n = w := by
  rw [← BitVec.eq_of_toNat_eq hn, packXYN_of_op hop]

theorem packXNN_of_op_nn (hop : (fieldOp w).toNat = op.toNat) (hnn : (fieldNn w).toNat = nn.toNat) :
    packXNN op (fieldX w) nn = w := by
  rw [← BitVec.eq_of_toNat_eq hnn, packXNN_of_op hop]

theorem decodeFamily8_readsBack (hop : (fieldOp w).toNat = 0x8) : ReadsBack w (decodeFamily8 w) := by
  unfold decodeFamily8
  split
  case h_10 => exact .error _
  all_goals next hn => exact .ok (packXYN_of_op_n hop hn)

theorem decodeFamilyE_readsBack (hop : (fieldOp w).toNat = 0xE) : ReadsBack w (decodeFamilyE w) := by
  unfold decodeFamilyE
  split
  case h_3 => exact .error _
  all_goals next hnn => exact .ok (packXNN_of_op_nn hop hnn)

theorem decodeFamilyF_readsBack (hop : (fieldOp w).toNat = 0xF) : ReadsBack w (decodeFamilyF w) := by
  unfold decodeFamilyF
  split
  case h_10 => exact .error _
  all_goals next hnn => exact .ok (packXNN_of_op_nn hop hnn)

/-- No bit of a word is lost, family by family in the order of the top nibble. -/
theorem decodeWord_readsBack (w : Word) : ReadsBack w (decodeWord w) := by
  unfold decodeWord
  split
  next hop =>
    split
    next h => exact .ok h.symm
    next =>
      split
      next h => exact .ok h.symm
      next => exact .error _
  next hop => exact .ok (packNNN_of_op hop)
  next hop => exact .ok (packNNN_of_op hop)
  next hop => exact .ok (packXNN_of_op hop)
  next hop => exact .ok (packXNN_of_op hop)
  next hop =>
    split
    next hn => exact .ok (packXYN_of_op_n hop (congrArg BitVec.toNat hn))
    next => exact .error _
  next hop => exact .ok (packXNN_of_op hop)
  next hop => exact .ok (packXNN_of_op hop)
  next hop => exact decodeFamily8_readsBack hop
  next hop =>
    split
    next hn => exact .ok (packXYN_of_op_n hop (congrArg BitVec.toNat hn))
    next => exact .error _
  next hop => exact .ok (packNNN_of_op hop)
  next hop => exact .ok (packNNN_of_op hop)
  next hop => exact .ok (packXNN_of_op hop)
  next hop => exact .ok (packXYN_of_op hop)
  next hop => exact decodeFamilyE_readsBack hop
  next hop => exact decodeFamilyF_readsBack hop
  next => exact .error _

/-- Settles O3, by `decodeWord_readsBack`. -/
theorem encodeInvertsDecode : Obligations.EncodeInvertsDecode := decodeWord_readsBack

/-- Decoding and encoding are inverse to each other. -/
theorem decodeWord_eq_ok_iff : decodeWord w = .ok i ↔ encode i = w :=
  ⟨decodeWord_readsBack w i, fun h => h ▸ decodeWord_encode i⟩

/-! ## Rows of the opcode map -/

theorem OpcodeRow.selects_iff {r : OpcodeRow} : r.selects w = true ↔ w &&& r.mask = r.pattern := beq_iff_eq

/-- The word of an instruction has the fixed bits of its row. -/
theorem row_selects_encode (i : Instr) : i.row.selects (encode i) = true := by
  cases i with
  | cls => exact Laws.EncodingFitsRow.cls
  | ret => exact Laws.EncodingFitsRow.ret
  | jpNnn nnn => exact Laws.EncodingFitsRow.jpNnn nnn
  | callNnn nnn => exact Laws.EncodingFitsRow.callNnn nnn
  | seVxNn x nn => exact Laws.EncodingFitsRow.seVxNn x nn
  | sneVxNn x nn => exact Laws.EncodingFitsRow.sneVxNn x nn
  | seVxVy x y => exact Laws.EncodingFitsRow.seVxVy x y
  | ldVxNn x nn => exact Laws.EncodingFitsRow.ldVxNn x nn
  | addVxNn x nn => exact Laws.EncodingFitsRow.addVxNn x nn
  | ldVxVy x y => exact Laws.EncodingFitsRow.ldVxVy x y
  | orVxVy x y => exact Laws.EncodingFitsRow.orVxVy x y
  | andVxVy x y => exact Laws.EncodingFitsRow.andVxVy x y
  | xorVxVy x y => exact Laws.EncodingFitsRow.xorVxVy x y
  | addVxVy x y => exact Laws.EncodingFitsRow.addVxVy x y
  | subVxVy x y => exact Laws.EncodingFitsRow.subVxVy x y
  | shrVx x y => exact Laws.EncodingFitsRow.shrVx x y
  | subnVxVy x y => exact Laws.EncodingFitsRow.subnVxVy x y
  | shlVx x y => exact Laws.EncodingFitsRow.shlVx x y
  | sneVxVy x y => exact Laws.EncodingFitsRow.sneVxVy x y
  | ldINnn nnn => exact Laws.EncodingFitsRow.ldINnn nnn
  | jpV0Nnn nnn => exact Laws.EncodingFitsRow.jpV0Nnn nnn
  | rndVxNn x nn => exact Laws.EncodingFitsRow.rndVxNn x nn
  | drwVxVyN x y n => exact Laws.EncodingFitsRow.drwVxVyN x y n
  | skpVx x => exact Laws.EncodingFitsRow.skpVx x
  | sknpVx x => exact Laws.EncodingFitsRow.sknpVx x
  | ldVxDt x => exact Laws.EncodingFitsRow.ldVxDt x
  | ldVxK x => exact Laws.EncodingFitsRow.ldVxK x
  | ldDtVx x => exact Laws.EncodingFitsRow.ldDtVx x
  | ldStVx x => exact Laws.EncodingFitsRow.ldStVx x
  | addIVx x => exact Laws.EncodingFitsRow.addIVx x
  | ldFVx x => exact Laws.EncodingFitsRow.ldFVx x
  | ldBVx x => exact Laws.EncodingFitsRow.ldBVx x
  | ldMemVx x => exact Laws.EncodingFitsRow.ldMemVx x
  | ldVxMem x => exact Laws.EncodingFitsRow.ldVxMem x

/-- The rows of the map are those of the instructions. -/
theorem row_mem_opcodeMap (i : Instr) : i.row ∈ opcodeMap := by
  cases i <;> simp [opcodeMap, Instr.row]

theorem exists_row_eq {r : OpcodeRow} (h : r ∈ opcodeMap) : ∃ i : Instr, i.row = r := by
  rcases List.mem_append.mp h with h | h
  · obtain ⟨i, -, hi⟩ := List.mem_map.mp h
    exact ⟨i, hi⟩
  · obtain ⟨i, -, hi⟩ := List.mem_map.mp h
    exact ⟨i, hi⟩

/-- No two rows of the map agree on the bits both of them fix. -/
theorem opcodeMap_separated : ∀ r ∈ opcodeMap, ∀ r' ∈ opcodeMap, r.pattern &&& r'.mask = r'.pattern &&& r.mask → r = r' := by
  decide

/-- At most one row selects a word. -/
theorem row_unique {r r' : OpcodeRow} (hr : r ∈ opcodeMap) (hr' : r' ∈ opcodeMap) (h : r.selects w = true)
    (h' : r'.selects w = true) : r = r' := by
  refine opcodeMap_separated r hr r' hr' ?_
  rw [← OpcodeRow.selects_iff.mp h, ← OpcodeRow.selects_iff.mp h', BitVec.and_assoc, BitVec.and_assoc,
    BitVec.and_comm r.mask]

/-! A word that a row selects has the literal fields of the row's pattern `p`; its other fields are the operands. -/

theorem op_of_row (h : OpcodeRow.selects ⟨0xF000#16, p⟩ w = true) (hop : fieldOp p = op) :
    (fieldOp w).toNat = op.toNat := by
  obtain rfl := (and_F000 w).symm.trans (OpcodeRow.selects_iff.mp h)
  rw [← hop, fieldOp_packNNN]

theorem packXY_of_row (h : OpcodeRow.selects ⟨0xF00F#16, p⟩ w = true) (hop : fieldOp p = op) (hn : fieldN p = n) :
    packXYN op (fieldX w) (fieldY w) n = w := by
  obtain rfl := (and_F00F w).symm.trans (OpcodeRow.selects_iff.mp h)
  rw [← hop, ← hn, fieldOp_packXYN, fieldN_packXYN, packXYN_fields]

theorem packX_of_row (h : OpcodeRow.selects ⟨0xF0FF#16, p⟩ w = true) (hop : fieldOp p = op) (hnn : fieldNn p = nn) :
    packXNN op (fieldX w) nn = w := by
  obtain rfl := (and_F0FF w).symm.trans (OpcodeRow.selects_iff.mp h)
  rw [← hop, ← hnn, fieldOp_packXNN, fieldNn_packXNN, packXNN_fields]

theorem eq_of_row (h : OpcodeRow.selects ⟨0xFFFF#16, p⟩ w = true) : p = w := by
  have hw : w &&& 0xFFFF#16 = p := OpcodeRow.selects_iff.mp h
  rw [← hw]
  exact BitVec.and_allOnes

/-- A word selected by an instruction's row is the word of that instruction with the word's own operands. -/
theorem exists_encode_of_row_selects (j : Instr) (h : j.row.selects w = true) : ∃ i, encode i = w := by
  cases j with
  | cls => exact ⟨.cls, eq_of_row h⟩
  | ret => exact ⟨.ret, eq_of_row h⟩
  | jpNnn _ => exact ⟨.jpNnn (fieldNnn w), packNNN_of_op (op_of_row h rfl)⟩
  | callNnn _ => exact ⟨.callNnn (fieldNnn w), packNNN_of_op (op_of_row h rfl)⟩
  | seVxNn _ _ => exact ⟨.seVxNn (fieldX w) (fieldNn w), packXNN_of_op (op_of_row h rfl)⟩
  | sneVxNn _ _ => exact ⟨.sneVxNn (fieldX w) (fieldNn w), packXNN_of_op (op_of_row h rfl)⟩
  | seVxVy _ _ => exact ⟨.seVxVy (fieldX w) (fieldY w), packXY_of_row h rfl rfl⟩
  | ldVxNn _ _ => exact ⟨.ldVxNn (fieldX w) (fieldNn w), packXNN_of_op (op_of_row h rfl)⟩
  | addVxNn _ _ => exact ⟨.addVxNn (fieldX w) (fieldNn w), packXNN_of_op (op_of_row h rfl)⟩
  | ldVxVy _ _ => exact ⟨.ldVxVy (fieldX w) (fieldY w), packXY_of_row h rfl rfl⟩
  | orVxVy _ _ => exact ⟨.orVxVy (fieldX w) (fieldY w), packXY_of_row h rfl rfl⟩
  | andVxVy _ _ => exact ⟨.andVxVy (fieldX w) (fieldY w), packXY_of_row h rfl rfl⟩
  | xorVxVy _ _ => exact ⟨.xorVxVy (fieldX w) (fieldY w), packXY_of_row h rfl rfl⟩
  | addVxVy _ _ => exact ⟨.addVxVy (fieldX w) (fieldY w), packXY_of_row h rfl rfl⟩
  | subVxVy _ _ => exact ⟨.subVxVy (fieldX w) (fieldY w), packXY_of_row h rfl rfl⟩
  | shrVx _ _ => exact ⟨.shrVx (fieldX w) (fieldY w), packXY_of_row h rfl rfl⟩
  | subnVxVy _ _ => exact ⟨.subnVxVy (fieldX w) (fieldY w), packXY_of_row h rfl rfl⟩
  | shlVx _ _ => exact ⟨.shlVx (fieldX w) (fieldY w), packXY_of_row h rfl rfl⟩
  | sneVxVy _ _ => exact ⟨.sneVxVy (fieldX w) (fieldY w), packXY_of_row h rfl rfl⟩
  | ldINnn _ => exact ⟨.ldINnn (fieldNnn w), packNNN_of_op (op_of_row h rfl)⟩
  | jpV0Nnn _ => exact ⟨.jpV0Nnn (fieldNnn w), packNNN_of_op (op_of_row h rfl)⟩
  | rndVxNn _ _ => exact ⟨.rndVxNn (fieldX w) (fieldNn w), packXNN_of_op (op_of_row h rfl)⟩
  | drwVxVyN _ _ _ => exact ⟨.drwVxVyN (fieldX w) (fieldY w) (fieldN w), packXYN_of_op (op_of_row h rfl)⟩
  | skpVx _ => exact ⟨.skpVx (fieldX w), packX_of_row h rfl rfl⟩
  | sknpVx _ => exact ⟨.sknpVx (fieldX w), packX_of_row h rfl rfl⟩
  | ldVxDt _ => exact ⟨.ldVxDt (fieldX w), packX_of_row h rfl rfl⟩
  | ldVxK _ => exact ⟨.ldVxK (fieldX w), packX_of_row h rfl rfl⟩
  | ldDtVx _ => exact ⟨.ldDtVx (fieldX w), packX_of_row h rfl rfl⟩
  | ldStVx _ => exact ⟨.ldStVx (fieldX w), packX_of_row h rfl rfl⟩
  | addIVx _ => exact ⟨.addIVx (fieldX w), packX_of_row h rfl rfl⟩
  | ldFVx _ => exact ⟨.ldFVx (fieldX w), packX_of_row h rfl rfl⟩
  | ldBVx _ => exact ⟨.ldBVx (fieldX w), packX_of_row h rfl rfl⟩
  | ldMemVx _ => exact ⟨.ldMemVx (fieldX w), packX_of_row h rfl rfl⟩
  | ldVxMem _ => exact ⟨.ldVxMem (fieldX w), packX_of_row h rfl rfl⟩

theorem row_selects_of_decodeWord (h : decodeWord w = .ok i) : i.row.selects w = true :=
  decodeWord_eq_ok_iff.mp h ▸ row_selects_encode i

/-- A word decodes exactly when some row of the map selects it. -/
theorem decodes_iff_wordWellFormed : (∃ i, decodeWord w = .ok i) ↔ wordWellFormed w = true := by
  rw [wordWellFormed, List.any_eq_true]
  constructor
  · rintro ⟨i, hi⟩
    exact ⟨i.row, row_mem_opcodeMap i, row_selects_of_decodeWord hi⟩
  · rintro ⟨r, hr, hsel⟩
    obtain ⟨j, rfl⟩ := exists_row_eq hr
    obtain ⟨i, hi⟩ := exists_encode_of_row_selects j hsel
    exact ⟨i, decodeWord_eq_ok_iff.mpr hi⟩

/-- Settles O4: the rows decide what decodes and select apart; the layout is that of `encode`, the decoder's inverse. -/
theorem decodeAcceptsExactlyTheOpcodeMap : Obligations.DecodeAcceptsExactlyTheOpcodeMap := by
  refine fun w => ⟨decodes_iff_wordWellFormed, fun i hi => ?_, fun i => ?_⟩
  · have hsel := row_selects_of_decodeWord hi
    exact ⟨hsel, fun r hr hr' => row_unique hr (row_mem_opcodeMap i) hr' hsel⟩
  · rw [decodeWord_eq_ok_iff, encode_eq_layout, eq_comm]

/-! ## The words that are not instructions

The families with a secondary selector reject by its value. -/

theorem decodeFamily8_eq_error :
    decodeFamily8 w = .error (.unrecognized w) ↔ fieldN w ∈ [0x8#4, 0x9#4, 0xA#4, 0xB#4, 0xC#4, 0xD#4, 0xF#4] := by
  unfold decodeFamily8
  have hlt := (fieldN w).isLt
  split
  case h_10 =>
    simp only [imp_false] at *
    simp only [true_iff, List.mem_cons, List.not_mem_nil, or_false, ← BitVec.toNat_inj, BitVec.toNat_ofNat]
    omega
  all_goals next hn => simp [← BitVec.toNat_inj, hn]

theorem decodeFamilyE_eq_error :
    decodeFamilyE w = .error (.unrecognized w) ↔ fieldNn w ≠ 0x9E#8 ∧ fieldNn w ≠ 0xA1#8 := by
  unfold decodeFamilyE
  split
  case h_3 => simp_all [← BitVec.toNat_inj]
  all_goals next hnn => simp [← BitVec.toNat_inj, hnn]

theorem decodeFamilyF_eq_error :
    decodeFamilyF w = .error (.unrecognized w) ↔
      fieldNn w ∉ [0x07#8, 0x0A#8, 0x15#8, 0x18#8, 0x1E#8, 0x29#8, 0x33#8, 0x55#8, 0x65#8] := by
  unfold decodeFamilyF
  split
  case h_10 => simp_all [← BitVec.toNat_inj]
  all_goals next hnn => simp [← BitVec.toNat_inj, hnn]

/-- Within a family a word is known by its low 12 bits. -/
theorem eq_iff_fieldNnn_eq {v : Word} (hop : fieldOp w = fieldOp v) : w = v ↔ fieldNnn w = fieldNnn v := by
  refine ⟨congrArg fieldNnn, fun h => ?_⟩
  rw [← packNNN_fields w, ← packNNN_fields v, hop, h]

/-- Settles O5, family by family: a family without a secondary selector rejects nothing. -/
theorem unrecognizedWordsAreSixSets : Obligations.UnrecognizedWordsAreSixSets := by
  intro w
  unfold decodeWord
  split
  case h_1 hval =>
    have hop : fieldOp w = 0x0#4 := BitVec.eq_of_toNat_eq hval
    have hcls : w = 0x00E0#16 ↔ fieldNnn w = 0x0E0#12 := eq_iff_fieldNnn_eq hop
    have hret : w = 0x00EE#16 ↔ fieldNnn w = 0x0EE#12 := eq_iff_fieldNnn_eq hop
    rw [hop]
    split_ifs <;> simp_all
  case h_9 hop => simp [decodeFamily8_eq_error, ← BitVec.toNat_inj (n := 4), hop]
  case h_15 hop => simp [decodeFamilyE_eq_error, ← BitVec.toNat_inj (n := 4), hop]
  case h_16 hop => simp [decodeFamilyF_eq_error, ← BitVec.toNat_inj (n := 4), hop]
  case h_17 =>
    have hlt := (fieldOp w).isLt
    simp only [imp_false] at *
    omega
  all_goals next hop => simp [← BitVec.toNat_inj (n := 4), hop]

end Sys2Proof
end

section
/-! PROOFS. The frame of every instruction (spec 30_encoding.md R65, 20_memory.md R40): the next state is the state before
with the instruction's own parts replaced. -/

namespace Sys2Proof.Machine

variable {parts : List Part} {s t : State} {i : Instr}

/-- `s` with the named parts taken from `t`. -/
def State.replace (parts : List Part) (s t : State) : State where
  mem      := if .mem ∈ parts then t.mem else s.mem
  v        := if .regs ∈ parts then t.v else s.v
  i        := if .i ∈ parts then t.i else s.i
  pc       := if .pc ∈ parts then t.pc else s.pc
  sp       := if .sp ∈ parts then t.sp else s.sp
  stack    := if .stack ∈ parts then t.stack else s.stack
  dt       := if .dt ∈ parts then t.dt else s.dt
  st       := if .st ∈ parts then t.st else s.st
  k        := if .k ∈ parts then t.k else s.k
  fb       := if .fb ∈ parts then t.fb else s.fb
  status   := if .status ∈ parts then t.status else s.status
  fault    := if .fault ∈ parts then t.fault else s.fault
  rndIn    := if .rnd ∈ parts then t.rndIn else s.rndIn
  rndCount := if .rnd ∈ parts then t.rndCount else s.rndCount

/-- Replacing parts changes no other part. -/
theorem onlyChanges_replace (parts : List Part) (s t : State) : OnlyChanges parts s (s.replace parts t) := by
  intro p hp
  cases p <;> simp [Part.same, State.replace, State.getV, State.keyDown, State.cell, hp]

theorem onlyChanges_of_eq_replace (h : t = s.replace parts t) : OnlyChanges parts s t := by
  rw [h]
  exact onlyChanges_replace parts s t

/-- If the machine still runs, `t` is `s` with nothing but the parts of the instruction replaced. -/
def WritesOnlyParts (i : Instr) (s t : State) : Prop := t.status = .running → t = s.replace (partsWritten i) t

theorem WritesOnlyParts.of_eq (h : t = s.replace (partsWritten i) t) : WritesOnlyParts i s t := fun _ => h

theorem writesOnlyParts_halt (i : Instr) (s : State) (c : FaultCause) (info : Word) (_ : c ≠ .none) :
    WritesOnlyParts i s (s.halt c (encode i) info) := nofun

/-- A draw replaces the model's two bookkeeping fields, whether a byte was handed over or not. -/
theorem takeRnd_eq_replace (s : State) : s.takeRnd = s.replace [.rnd] s.takeRnd := by
  unfold State.takeRnd
  split <;> rfl

/-- The next state of a draw, whatever the display and the flag are. -/
theorem writesOnlyParts_draw (x y n : Nibble) (s : State) (f : Vector FbRow 32) (flag : Byte) :
    WritesOnlyParts (.drwVxVyN x y n) s ((s.setFb f).setV vf flag).advance := .of_eq rfl

/-- Every instruction that leaves the machine RUNNING builds its next state from its own parts. -/
theorem exec_ensures_writesOnlyParts (i : Instr) (s : State) : Ensures (WritesOnlyParts i s) (exec i s) := by
  cases i with
  | ret =>
    refine .execRet (writesOnlyParts_halt _ s) fun w u hu => ?_
    obtain ⟨-, -, rfl⟩ := s.pop_eq_some.mp hu
    exact .of_eq rfl
  | callNnn nnn =>
    refine .execCallNnn (writesOnlyParts_halt _ s) fun u hu => ?_
    obtain ⟨-, rfl⟩ := s.push_eq_some.mp hu
    exact .of_eq rfl
  | rndVxNn x nn =>
    refine .next (.of_eq ?_)
    rw [takeRnd_eq_replace]
    rfl
  | ldVxK x => exact .execLdVxK (fun _ => .of_eq rfl) (.of_eq rfl)
  | skpVx x | sknpVx x => exact .skipOnKey (writesOnlyParts_halt _ s) fun _ => .of_eq rfl
  | drwVxVyN x y n => exact .guardData (writesOnlyParts_halt _ s) fun _ => writesOnlyParts_draw x y n s _ _
  | ldBVx _ | ldMemVx _ | ldVxMem _ => exact .guardData (writesOnlyParts_halt _ s) fun _ => .of_eq rfl
  | cls | jpNnn _ | jpV0Nnn _ | seVxNn _ _ | sneVxNn _ _ | seVxVy _ _ | sneVxVy _ _ => exact .next (.of_eq rfl)
  | ldVxNn _ _ | addVxNn _ _ | ldVxVy _ _ | orVxVy _ _ | andVxVy _ _ | xorVxVy _ _ => exact .next (.of_eq rfl)
  | addVxVy _ _ | subVxVy _ _ | shrVx _ _ | subnVxVy _ _ | shlVx _ _ => exact .next (.of_eq rfl)
  | ldINnn _ | addIVx _ | ldFVx _ | ldVxDt _ | ldDtVx _ | ldStVx _ => exact .next (.of_eq rfl)

/-! ## The bytes of memory an instruction stores to -/

/-- Outside the addresses written, memory reads as before. -/
theorem Memory.read_writeBytes_of_outside {m : Memory} {a b : Nat} {ws : List Byte}
    (h : ∀ k, k < ws.length → b ≠ a + k) : (m.writeBytes a ws).read b = m.read b := by
  rw [Memory.read_writeBytes]
  split
  · next hab =>
    have hlen : ws.length ≤ b - a := by
      by_contra hlt
      exact h (b - a) (by omega) (by omega)
    rw [List.getElem?_eq_none hlen, Option.getD_none]
  · rfl

/-- If the machine still runs, every byte outside the addresses stored to reads as before. -/
def StoresOnlyTo (i : Instr) (s t : State) : Prop :=
  t.status = .running → ∀ a, ¬ storesTo i s a → t.mem.read a = s.mem.read a

theorem storesOnlyTo_halt (i : Instr) (s : State) (c : FaultCause) (info : Word) (_ : c ≠ .none) :
    StoresOnlyTo i s (s.halt c (encode i) info) := nofun

/-- Bytes stored from `I` on. -/
theorem storesOnlyTo_writeBytes {ws : List Byte} (h : ∀ k, k < ws.length → storesTo i s (s.dataAddr k)) :
    StoresOnlyTo i s (s.setMem (s.mem.writeBytes (s.dataAddr 0) ws)).advance := by
  intro _ a ha
  refine Memory.read_writeBytes_of_outside fun k hk hak => ha ?_
  rw [hak]
  exact h k hk

/-- Two instructions have `mem` among their parts; for the others the frame of the parts says it. -/
theorem exec_ensures_storesOnlyTo (i : Instr) (s : State) : Ensures (StoresOnlyTo i s) (exec i s) := by
  by_cases hmem : .mem ∈ partsWritten i
  · cases i with
    | ldBVx x =>
      exact .guardData (storesOnlyTo_halt _ s) fun _ => storesOnlyTo_writeBytes fun k hk => ⟨k, hk, rfl⟩
    | ldMemVx x =>
      refine .guardData (storesOnlyTo_halt _ s) fun _ => storesOnlyTo_writeBytes fun k hk => ⟨k, ?_, rfl⟩
      rw [State.regsUpTo_length] at hk
      omega
    | _ => simp [partsWritten] at hmem
  · intro t ht hrun a _
    exact onlyChanges_of_eq_replace (exec_ensures_writesOnlyParts i s t ht hrun) .mem hmem a

/-- Settles O18: the parts by `exec_ensures_writesOnlyParts`, the bytes by `exec_ensures_storesOnlyTo`. -/
theorem instructionsChangeOnlyTheirParts : Obligations.InstructionsChangeOnlyTheirParts := fun i s t ht hrun =>
  ⟨onlyChanges_of_eq_replace (exec_ensures_writesOnlyParts i s t ht hrun), exec_ensures_storesOnlyTo i s t ht hrun⟩

end Sys2Proof.Machine
end

section
/-! PROOFS. A step runs the word it fetches (spec 30_encoding.md R70), one that the host placed (log 6) and, with its random
input, a `Cxnn` (41_alu.md R101). -/

namespace Sys2Proof.Machine

variable {s : State}

/-- Settles O8, by `step_eq_exec`. -/
theorem stepRunsDecodedInstruction : Obligations.StepRunsDecodedInstruction := fun _ _ => step_eq_exec

/-- A word placed where the next step fetches is the word fetched. -/
theorem fetch_placeWord (s : State) (w : Word) : (s.placeWord w).fetch = .ok w := by
  refine State.fetch_eq_ok _ |>.mpr ⟨?_, ?_⟩
  · unfold State.placeWord
    dsimp only
    split
    · next h =>
      simp only [Config.memSize] at h
      omega
    · decide
  · simp [State.placeWord, Memory.read_writeBytes]

/-- Settles O9: the placed word is the one fetched, and the state it stands in is RUNNING. -/
theorem stepRunsPlacedWord : Obligations.StepRunsPlacedWord := by
  intro s w i h
  have hdec := (decodeTableWord_16 w i).mp h
  obtain ⟨hpc, hword⟩ := (State.fetch_eq_ok _).mp (fetch_placeWord s (tableWord 16 w))
  exact step_eq_exec rfl hpc (hword ▸ hdec)

/-- A step at a `Cxnn` puts its input under the mask in `Vx`; the bytes handed over before are put back. -/
theorem stepWith_rndVxNn {rnd : Byte} {x : Nibble} {nn : Byte} (hrun : s.status = .running) (hpc : s.pc.toNat ≤ 0xFFE)
    (hdec : decodeWord (wordOfBytes (s.mem.read s.pc.toNat) (s.mem.read (s.pc.toNat + 1))) = .ok (.rndVxNn x nn)) :
    stepWith rnd s = .next (s.loadV x (rnd &&& nn)) := by
  rw [stepWith_eq_mapNext, step_eq_exec (s := s.setRndIn (rnd :: s.rndIn)) hrun hpc hdec]
  rfl

/-- Settles O35, by `stepWith_rndVxNn`. -/
theorem stepInputReachesVx : Obligations.StepInputReachesVx := by
  intro s rnd x nn hrun hpc hdec
  refine ⟨s.loadV x (rnd &&& nn), stepWith_rndVxNn hrun hpc hdec, ?_, rfl, fun r hr => ?_,
    onlyChanges_of_eq_replace rfl⟩
  · exact s.getV_setV_same x _
  · exact s.getV_setV_ne _ (List.ne_of_not_mem_cons hr)

end Sys2Proof.Machine
end

section
/-! PROOFS. Control transfer (spec 40_control.md): jumps, the call stack, skips. -/

namespace Sys2Proof.Machine

variable {s : State}

theorem onlyChanges_setPc (s : State) (w : Word) : OnlyChanges [.pc] s (s.setPc w) := onlyChanges_of_eq_replace rfl

/-! ## Jumps -/

/-- Settles O20: the zero-extension keeps the value of `nnn`. -/
theorem jumpSetsPc : Obligations.JumpSetsPc := fun nnn s =>
  ⟨s.setPc (zext12 nnn), rfl, zext12_toNat nnn, onlyChanges_setPc s _⟩

/-- Settles O21: a 12-bit and an 8-bit number have a sum below 65536. -/
theorem indexedJumpAddsV0 : Obligations.IndexedJumpAddsV0 := by
  intro nnn s
  have hsum := zext12_add_zext8_toNat nnn (s.getV 0#4)
  refine ⟨s.setPc (zext12 nnn + zext8 (s.getV 0#4)), rfl, hsum, ?_, onlyChanges_setPc s _⟩
  have hn := nnn.isLt
  have hv := (s.getV 0#4).isLt
  rw [State.setPc_pc, hsum]
  omega

/-- The bytes at `PC` are fetched and are a jump to `PC` itself (70_reset_and_hazards.md R185). -/
theorem State.atSelfJump_iff :
    s.atSelfJump = true ↔ ∃ w, s.fetch = .ok w ∧ decodeWord w = .ok (.jpNnn (s.pc.setWidth 12)) := by
  unfold State.atSelfJump
  cases s.fetch <;> simp

/-- An address of main memory fits the 12 bits of `nnn`. -/
theorem zext12_setWidth {w : Word} (h : w.toNat ≤ 0xFFF) : zext12 (w.setWidth 12) = w := by
  apply BitVec.eq_of_toNat_eq
  rw [zext12_toNat, BitVec.toNat_setWidth]
  omega

/-- Settles O28: the fetchable `PC` is a 12-bit address, so that the jump writes to `PC` what stands there. -/
theorem selfJumpStandsStill : Obligations.SelfJumpStandsStill := by
  intro s hrun hself
  obtain ⟨w, hfetch, hdec⟩ := State.atSelfJump_iff.mp hself
  obtain ⟨hpc, rfl⟩ := s.fetch_eq_ok.mp hfetch
  rw [step_eq_exec hrun hpc hdec, exec_jpNnn, execJpNnn, zext12_setWidth (by omega)]
  rfl

/-! ## The call stack -/

/-- The state a CALL made with room on the stack leaves (40_control.md R82). -/
def State.call (s : State) (nnn : Addr12) (h : s.sp.toNat < 16) : State :=
  ((s.setStack (s.stack.set s.sp.toNat s.npc h)).setSp (s.sp - 1#8)).setPc (zext12 nnn)

theorem exec_callNnn_of_room (nnn : Addr12) (h : s.sp.toNat < 16) : exec (.callNnn nnn) s = .next (s.call nnn h) := by
  have hroom : s.stackFull = false := beq_eq_false_iff_ne.mpr fun e => by simp [e] at h
  have hpush := (s.push_eq_some (w := s.npc)).mpr ⟨h, rfl⟩
  simp only [exec_callNnn, execCallNnn, hroom, hpush, Bool.false_eq_true, if_false, State.call]

theorem State.call_stack_same (nnn : Addr12) (h : s.sp.toNat < 16) : (s.call nnn h).stack[s.sp.toNat] = s.pc + 2#16 :=
  Vector.getElem_set_self h

theorem State.call_stack_ne (nnn : Addr12) (h : s.sp.toNat < 16) {j : Fin 16} (hj : j.val ≠ s.sp.toNat) :
    (s.call nnn h).stack[j] = s.stack[j] := Vector.getElem_set_ne h j.isLt hj.symm

/-- The decrement of `SP` wraps from 0 to 0xFF (10_state.md R16). -/
theorem sp_pred_toNat (b : Byte) : (b - 1#8).toNat = if b.toNat = 0 then 0xFF else b.toNat - 1 := by
  split <;> bv_omega

/-- Settles O22, field by field of the state `exec_callNnn_of_room` gives. -/
theorem callPushesReturnAddress : Obligations.CallPushesReturnAddress := by
  intro nnn s h
  have hroom : s.sp.toNat < 16 := Nat.lt_succ_of_le h
  exact ⟨s.call nnn hroom, exec_callNnn_of_room nnn hroom, zext12_toNat nnn, s.call_stack_same nnn hroom,
    fun _ => s.call_stack_ne nnn hroom, sp_pred_toNat s.sp, onlyChanges_of_eq_replace rfl⟩

/-- RET with the next `SP` selecting an entry: there is then no underflow, 0x10 selecting none. -/
theorem exec_ret_of_next_sp {b : Byte} (hsp : s.sp + 1#8 = b) (hb : b.toNat < 16) :
    exec .ret s = .next ((s.setSp b).setPc s.stack[b.toNat]) := by
  subst hsp
  have hheld : s.stackEmpty = false := beq_eq_false_iff_ne.mpr fun e => by simp [e] at hb
  have hpop := s.pop_eq_some.mpr ⟨hb, rfl, rfl⟩
  simp only [exec_ret, execRet, hheld, hpop, Bool.false_eq_true, if_false]

/-- Settles O23: the entry `j` is the one `SP + 1` selects. -/
theorem returnPopsReturnAddress : Obligations.ReturnPopsReturnAddress := by
  intro s j _ _ hj
  have hnext : (s.sp + 1#8).toNat = j.val := by rw [BitVec.toNat_add, hj]; rfl
  refine ⟨_, exec_ret_of_next_sp rfl (hnext ▸ j.isLt), ?_, hnext, onlyChanges_of_eq_replace rfl⟩
  simp [hnext]

/-- Settles O25: the RET adds to `SP` what the CALL took off and so selects the entry the CALL wrote. -/
theorem callThenReturnComesBack : Obligations.CallThenReturnComesBack := by
  intro s nnn hrun hpc hsp hnnn hcall hret
  have hroom : s.sp.toNat < 16 := Nat.lt_succ_of_le hsp
  have htarget : (s.call nnn hroom).pc.toNat = nnn.toNat := zext12_toNat nnn
  have hback : (s.call nnn hroom).sp + 1#8 = s.sp := BitVec.sub_add_cancel s.sp 1#8
  have hdec : decodeWord (wordOfBytes ((s.call nnn hroom).mem.read (s.call nnn hroom).pc.toNat)
      ((s.call nnn hroom).mem.read ((s.call nnn hroom).pc.toNat + 1))) = .ok .ret := by
    rw [htarget]
    exact hret ▸ decodeWord_encode .ret
  refine ⟨s.call nnn hroom, ((s.call nnn hroom).setSp s.sp).setPc s.npc, ?_, ?_, State.npc_toNat hpc,
    onlyChanges_of_eq_replace rfl⟩
  · rw [step_eq_exec hrun hpc hcall, exec_callNnn_of_room nnn hroom]
  · rw [step_eq_exec (s := s.call nnn hroom) hrun (by omega) hdec, exec_ret_of_next_sp hback hroom, State.call_stack_same nnn hroom]
    rfl

/-! ## Skips -/

theorem onlyChanges_skipIf (s : State) (taken : Bool) : OnlyChanges [.pc] s (s.skipIf taken) :=
  onlyChanges_setPc s _

/-- On equal bytes a skip on equality goes two words on and a skip on difference goes to the next. -/
theorem State.skipIf_pc_of_eq {a b : Byte} (h : a = b) :
    (s.skipIf (a == b)).pc = s.pc + 4#16 ∧ (s.skipIf (a != b)).pc = s.pc + 2#16 := by
  simp [h, BitVec.add_assoc]

/-- On different bytes it is the other way round. -/
theorem State.skipIf_pc_of_ne {a b : Byte} (h : a ≠ b) :
    (s.skipIf (a == b)).pc = s.pc + 2#16 ∧ (s.skipIf (a != b)).pc = s.pc + 4#16 := by
  simp [h, BitVec.add_assoc]

/-- Settles O26: `Vx` is compared with `nn`. -/
theorem constantSkips : Obligations.ConstantSkips := fun x nn s =>
  ⟨s.skipIf (s.getV x == nn), s.skipIf (s.getV x != nn), rfl, rfl, State.skipIf_pc_of_eq, State.skipIf_pc_of_ne,
    onlyChanges_skipIf s _, onlyChanges_skipIf s _, encode_eq_layout _, encode_eq_layout _⟩

/-- Settles O27: `Vx` is compared with `Vy`. -/
theorem registerSkips : Obligations.RegisterSkips := fun x y s =>
  ⟨s.skipIf (s.getV x == s.getV y), s.skipIf (s.getV x != s.getV y), rfl, rfl, State.skipIf_pc_of_eq,
    State.skipIf_pc_of_ne, onlyChanges_skipIf s _, onlyChanges_skipIf s _⟩

end Sys2Proof.Machine
end

section
/-! PROOFS. Arithmetic and logic (spec 41_alu.md): a result goes to `Vx`, alone, before the flag or after it; what is computed
is the number the rules name. -/

namespace Sys2Proof.Machine

variable (s : State) (x : Nibble) (a b flag : Byte)

/-! ## What the three ways to write a result change -/

@[simp] theorem State.loadV_pc : (s.loadV x b).pc = s.pc + 2#16 := rfl

@[simp] theorem State.loadV_getV_same : (s.loadV x b).getV x = b := s.getV_setV_same x b

theorem regsKeptBut_loadV : RegsKeptBut [x] s (s.loadV x b) := fun _ hr =>
  keepsReg_setV (List.ne_of_not_mem_cons hr) b

theorem onlyChanges_loadV : OnlyChanges [.pc, .regs] s (s.loadV x b) := onlyChanges_of_eq_replace rfl

/-- The flag, written last, stands whatever `x` is (30_encoding.md R71). -/
@[simp] theorem State.loadVThenFlag_getV_vf : (s.loadVThenFlag x b flag).getV vf = flag :=
  (s.setV x b).getV_setV_same vf flag

variable {x} in
theorem State.loadVThenFlag_getV_same (hx : x ≠ vf) : (s.loadVThenFlag x b flag).getV x = b :=
  ((s.setV x b).getV_setV_ne flag hx).trans (s.getV_setV_same x b)

theorem regsKeptBut_loadVThenFlag : RegsKeptBut [x, vf] s (s.loadVThenFlag x b flag) := fun _ hr =>
  keepsReg_loadVThenFlag (List.ne_of_not_mem_cons hr) (List.ne_of_not_mem_cons (List.not_mem_of_not_mem_cons hr)) b flag

theorem onlyChanges_loadVThenFlag : OnlyChanges [.pc, .regs] s (s.loadVThenFlag x b flag) :=
  onlyChanges_of_eq_replace rfl

/-- The result, written last, stands whatever `x` is (30_encoding.md R71). -/
@[simp] theorem State.flagThenLoadV_getV_same : (s.flagThenLoadV x b flag).getV x = b :=
  (s.setV vf flag).getV_setV_same x b

variable {x} in
theorem State.flagThenLoadV_getV_vf (hx : x ≠ vf) : (s.flagThenLoadV x b flag).getV vf = flag :=
  ((s.setV vf flag).getV_setV_ne b hx.symm).trans (s.getV_setV_same vf flag)

theorem regsKeptBut_flagThenLoadV : RegsKeptBut [x, vf] s (s.flagThenLoadV x b flag) := fun _ hr =>
  keepsReg_flagThenLoadV (List.ne_of_not_mem_cons hr) (List.ne_of_not_mem_cons (List.not_mem_of_not_mem_cons hr)) b flag

theorem onlyChanges_flagThenLoadV : OnlyChanges [.pc, .regs] s (s.flagThenLoadV x b flag) :=
  onlyChanges_of_eq_replace rfl

/-! ## Results and flags as numbers (41_alu.md R89) -/

theorem flagByte_decide (p : Prop) [Decidable p] : flagByte (decide p) = if p then 0x01#8 else 0x00#8 := by
  simp [flagByte]

theorem carryFlag_eq_ite : carryFlag a b = if a.toNat + b.toNat > 255 then 0x01#8 else 0x00#8 := flagByte_decide _

theorem noBorrowFlag_eq_ite : noBorrowFlag a b = if a.toNat ≥ b.toNat then 0x01#8 else 0x00#8 := flagByte_decide _

/-- The flag of a bit is the digit of that place in the byte's binary numeral. -/
theorem flagByte_getLsbD_toNat (k : Nat) : (flagByte (a.getLsbD k)).toNat = a.toNat / 2 ^ k % 2 := by
  rw [← BitVec.testBit_toNat, Nat.testBit_eq_decide_div_mod_eq, flagByte_decide]
  split
  · next h => exact h.symm
  · next h => exact (Nat.mod_two_ne_one.mp h).symm

theorem lowBitFlag_toNat : (lowBitFlag a).toNat = a.toNat % 2 := by
  rw [lowBitFlag, flagByte_getLsbD_toNat, Nat.pow_zero, Nat.div_one]

theorem highBitFlag_toNat : (highBitFlag a).toNat = a.toNat / 128 := by
  have ha := a.isLt
  rw [highBitFlag, flagByte_getLsbD_toNat]
  omega

theorem byte_sub_toNat : (a - b).toNat = (a.toNat + 256 - b.toNat) % 256 := by
  have hb := b.isLt
  rw [BitVec.toNat_sub]
  omega

theorem byte_shiftRight_one_toNat : (a >>> 1).toNat = a.toNat / 2 := by
  rw [BitVec.toNat_ushiftRight, Nat.shiftRight_eq_div_pow, Nat.pow_one]

theorem byte_shiftLeft_one_toNat : (a <<< 1).toNat = 2 * a.toNat % 256 := by
  rw [BitVec.toNat_shiftLeft, Nat.shiftLeft_eq, Nat.pow_one, Nat.mul_comm]

/-! ## The instructions -/

/-- Settles O29: `ADD Vx, nn` writes no flag, so that `x = 0xF` is like any other destination. -/
theorem constantLoadAndAdd : Obligations.ConstantLoadAndAdd := fun x nn s =>
  ⟨s.loadV x nn, s.loadV x (s.getV x + nn), rfl, rfl, s.loadV_getV_same x _,
    (congrArg BitVec.toNat (s.loadV_getV_same x _)).trans (BitVec.toNat_add _ _), rfl, rfl,
    regsKeptBut_loadV s x _, regsKeptBut_loadV s x _, onlyChanges_loadV s x _, onlyChanges_loadV s x _,
    encode_eq_layout _, encode_eq_layout _⟩

/-- Settles O30: the four differ in the byte they write to `Vx` alone. -/
theorem copyAndLogic : Obligations.CopyAndLogic := by
  intro x y s
  have hframe : ∀ b, (s.loadV x b).pc = s.pc + 2#16 ∧ RegsKeptBut [x] s (s.loadV x b) ∧
      OnlyChanges [.pc, .regs] s (s.loadV x b) := fun b =>
    ⟨rfl, regsKeptBut_loadV s x b, onlyChanges_loadV s x b⟩
  refine ⟨s.loadV x (s.getV y), s.loadV x (s.getV x ||| s.getV y), s.loadV x (s.getV x &&& s.getV y),
    s.loadV x (s.getV x ^^^ s.getV y), rfl, rfl, rfl, rfl, s.loadV_getV_same x _, fun k => ?_, fun k => ?_, fun k => ?_,
    ?_, encode_eq_layout _, encode_eq_layout _, encode_eq_layout _, encode_eq_layout _⟩
  · rw [State.loadV_getV_same, BitVec.getLsbD_or]
  · rw [State.loadV_getV_same, BitVec.getLsbD_and]
  · rw [State.loadV_getV_same, BitVec.getLsbD_xor]
  · simp [hframe]

/-- Settles O31: the carry is written after the sum. -/
theorem addSetsCarry : Obligations.AddSetsCarry := by
  intro x y s
  refine ⟨s.loadVThenFlag x (s.getV x + s.getV y) (carryFlag (s.getV x) (s.getV y)), rfl, ?_, fun hx => ?_, rfl,
    regsKeptBut_loadVThenFlag s x _ _, onlyChanges_loadVThenFlag s x _ _⟩
  · exact (s.loadVThenFlag_getV_vf x _ _).trans (carryFlag_eq_ite _ _)
  · rw [s.loadVThenFlag_getV_same _ _ hx, BitVec.toNat_add]

/-- Settles O32: SUBN is SUB with the operands' roles exchanged, and the flag is written after the difference. -/
theorem subtractSetsNoBorrow : Obligations.SubtractSetsNoBorrow := by
  intro x y s
  refine ⟨s.loadVThenFlag x (s.getV x - s.getV y) (noBorrowFlag (s.getV x) (s.getV y)),
    s.loadVThenFlag x (s.getV y - s.getV x) (noBorrowFlag (s.getV y) (s.getV x)), rfl, rfl, ?_, ?_, fun hx => ?_,
    rfl, rfl, regsKeptBut_loadVThenFlag s x _ _, regsKeptBut_loadVThenFlag s x _ _,
    onlyChanges_loadVThenFlag s x _ _, onlyChanges_loadVThenFlag s x _ _⟩
  · exact (s.loadVThenFlag_getV_vf x _ _).trans (noBorrowFlag_eq_ite _ _)
  · exact (s.loadVThenFlag_getV_vf x _ _).trans (noBorrowFlag_eq_ite _ _)
  · rw [s.loadVThenFlag_getV_same _ _ hx, s.loadVThenFlag_getV_same _ _ hx]
    exact ⟨byte_sub_toNat _ _, byte_sub_toNat _ _⟩

/-- Settles O33: the shifted value is written after the flag. -/
theorem shiftsByOne : Obligations.ShiftsByOne := by
  intro x y s
  refine ⟨s.flagThenLoadV x (s.getV x >>> 1) (lowBitFlag (s.getV x)),
    s.flagThenLoadV x (s.getV x <<< 1) (highBitFlag (s.getV x)), rfl, rfl, ?_, ?_, fun hx => ?_,
    rfl, rfl, regsKeptBut_flagThenLoadV s x _ _, regsKeptBut_flagThenLoadV s x _ _,
    onlyChanges_flagThenLoadV s x _ _, onlyChanges_flagThenLoadV s x _ _⟩
  · rw [State.flagThenLoadV_getV_same, byte_shiftRight_one_toNat]
  · rw [State.flagThenLoadV_getV_same, byte_shiftLeft_one_toNat]
  · exact ⟨(congrArg BitVec.toNat (s.flagThenLoadV_getV_vf _ _ hx)).trans (lowBitFlag_toNat _),
      (congrArg BitVec.toNat (s.flagThenLoadV_getV_vf _ _ hx)).trans (highBitFlag_toNat _)⟩

/-- A byte handed over is the byte of the step. -/
theorem State.rnd_of_rndIn {rest : List Byte} (h : s.rndIn = b :: rest) : s.rnd = b := by
  simp [State.rnd, h]

/-- Settles O34: besides the load of `Vx` the draw changes its own bookkeeping, `takeRnd_eq_replace`. -/
theorem randomByteUnderMask : Obligations.RandomByteUnderMask := by
  intro x nn s
  have hvalue : (s.takeRnd.loadV x (s.rnd &&& nn)).getV x = s.rnd &&& nn := s.takeRnd.loadV_getV_same x _
  refine ⟨s.takeRnd.loadV x (s.rnd &&& nn), rfl, fun b rest h => ?_, hvalue, ?_, fun r hr => ?_, ?_⟩
  · rw [hvalue, s.rnd_of_rndIn b h]
  · rw [State.loadV_pc, State.takeRnd_pc]
  · exact (regsKeptBut_loadV s.takeRnd x _ r hr).trans (s.takeRnd_getV r)
  · refine onlyChanges_of_eq_replace ?_
    rw [takeRnd_eq_replace]
    rfl

end Sys2Proof.Machine
end

section
/-! PROOFS. The index register and memory transfer (spec 42_index_memory.md): the three writes to `I` as numbers, and the
three transfers with their addresses inside main memory. -/

namespace Sys2Proof.Machine

/-! ## The index register -/

section Index

variable (s : State) (b : Byte)

theorem onlyChanges_setI_advance (w : Word) : OnlyChanges [.pc, .i] s (s.setI w).advance := onlyChanges_of_eq_replace rfl

theorem zext8_toNat : (zext8 b).toNat = b.toNat := BitVec.toNat_setWidth_of_le (by decide)

/-- The address of the glyph of a byte, of one past the font too, fits 16 bits (R112). -/
theorem glyphAddress_toNat : (BitVec.ofNat 16 Config.fontBase + 5#16 * zext8 b).toNat = 0x100 + 5 * b.toNat := by
  have hb := b.isLt
  simp only [Config.fontBase, BitVec.toNat_add, BitVec.toNat_mul, BitVec.toNat_ofNat, zext8_toNat]
  omega

theorem add_zext8_toNat (w : Word) : (w + zext8 b).toNat = (w.toNat + b.toNat) % 65536 := by
  rw [BitVec.toNat_add, zext8_toNat]

end Index

/-- Settles O36: neither constant needs more than the 16 bits of `I`. -/
theorem indexLoads : Obligations.IndexLoads := fun nnn x s =>
  ⟨(s.setI (zext12 nnn)).advance, (s.setI (BitVec.ofNat 16 Config.fontBase + 5#16 * zext8 (s.getV x))).advance, rfl, rfl,
    zext12_toNat nnn, glyphAddress_toNat (s.getV x), rfl, rfl, onlyChanges_setI_advance s _, onlyChanges_setI_advance s _,
    encode_eq_layout _, encode_eq_layout _⟩

/-- Settles O37: the 16-bit sum is the sum modulo 65536. -/
theorem indexAdd : Obligations.IndexAdd := fun x s =>
  ⟨(s.setI (s.i + zext8 (s.getV x))).advance, rfl, add_zext8_toNat (s.getV x) s.i, rfl, onlyChanges_setI_advance s _⟩

/-! ## What the transfers read and write -/

section Transfer

variable {s s' : State} {x r : Nibble}

/-- With its last address inside main memory, an instruction goes to the state it was given (20_memory.md R48). -/
theorem guardData_of_inRange {i : Instr} {k : Nat} (h : s.i.toNat + k ≤ 0xFFF) : guardData i (k + 1) s s' = .next s' := by
  have hnone : s.dataFault (k + 1) = none := (s.dataFault_eq_none _).mpr (.inr h)
  rw [guardData, hnone]

theorem onlyChanges_setMem_advance (s : State) (m : Memory) : OnlyChanges [.pc, .mem] s (s.setMem m).advance :=
  onlyChanges_of_eq_replace rfl

/-- Outside the `k + 1` addresses from `a` on, writing that many bytes there changes nothing. -/
theorem Memory.read_writeBytes_of_not_between {m : Memory} {a b k : Nat} {ws : List Byte} (hlen : ws.length = k + 1)
    (h : b < a ∨ a + k < b) : (m.writeBytes a ws).read b = m.read b :=
  Memory.read_writeBytes_of_outside fun j hj => by omega

/-- At each address written, memory reads as the byte written there. -/
theorem Memory.read_writeBytes_add (m : Memory) (a : Nat) {ws : List Byte} {k : Nat} (h : k < ws.length) :
    (m.writeBytes a ws).read (a + k) = ws[k] := by
  rw [Memory.read_writeBytes, if_pos (Nat.le_add_right a k), Nat.add_sub_cancel_left, List.getElem?_eq_getElem h,
    Option.getD_some]

/-- Memory after the decimal digits of `Vx` have gone to `I`, `I + 1`, `I + 2`. -/
def State.memWithDigits (s : State) (x : Nibble) : Memory := s.mem.writeBytes (s.dataAddr 0) (bcdDigits (s.getV x))

theorem exec_ldBVx_of_inRange (hrange : s.i.toNat + 2 ≤ 0xFFF) :
    exec (.ldBVx x) s = .next (s.setMem (s.memWithDigits x)).advance :=
  guardData_of_inRange hrange

theorem State.memWithDigits_read {k : Nat} (hk : k < 3) :
    (s.memWithDigits x).read (s.i.toNat + k) = (bcdDigits (s.getV x))[k]'hk :=
  s.mem.read_writeBytes_add (s.dataAddr 0) hk

theorem exec_ldVxMem_of_inRange (hrange : s.i.toNat + x.toNat ≤ 0xFFF) :
    exec (.ldVxMem x) s = .next (s.loadRegs x).advance :=
  guardData_of_inRange hrange

theorem onlyChanges_loadRegs_advance (s : State) (x : Nibble) : OnlyChanges [.pc, .regs] s (s.loadRegs x).advance :=
  onlyChanges_of_eq_replace rfl

theorem State.getV_loadRegs_of_le (hr : r.toNat ≤ x.toNat) :
    (s.loadRegs x).getV r = s.mem.read (s.i.toNat + r.toNat) :=
  (s.getV_loadRegs x r).trans (if_pos hr)

end Transfer

/-! ## The transfers -/

/-- Settles O38: each of the three cells holds the byte written there, a digit. -/
theorem bcdStoresDigits : Obligations.BcdStoresDigits := by
  intro x s hrange
  obtain ⟨hhundreds, htens, hones⟩ := State.bcd_toNat (s.getV x)
  refine ⟨(s.setMem (s.memWithDigits x)).advance, exec_ldBVx_of_inRange hrange, ?_, ?_, ?_,
    fun a ha => Memory.read_writeBytes_of_not_between rfl ha, rfl, onlyChanges_setMem_advance s _⟩
  · exact (congrArg BitVec.toNat (State.memWithDigits_read (k := 0) (by decide))).trans hhundreds
  · exact (congrArg BitVec.toNat (State.memWithDigits_read (k := 1) (by decide))).trans htens
  · exact (congrArg BitVec.toNat (State.memWithDigits_read (k := 2) (by decide))).trans hones

/-- Settles O39: the cells by `State.memWithRegs_read`, the others because `x + 1` bytes are written. -/
theorem storeRegisters : Obligations.StoreRegisters := fun x s hrange =>
  ⟨(s.setMem (s.memWithRegs x)).advance, exec_ldMemVx_of_inRange hrange, fun _ hr => State.memWithRegs_read hr,
    fun _ ha => Memory.read_writeBytes_of_not_between (s.regsUpTo_length x) ha, rfl, onlyChanges_setMem_advance s _⟩

/-- Settles O40: the registers up to `Vx` by `State.getV_loadRegs_of_le`, those above it are kept. -/
theorem loadRegisters : Obligations.LoadRegisters := by
  intro x s hrange
  refine ⟨(s.loadRegs x).advance, exec_ldVxMem_of_inRange hrange, fun r hr => ?_, fun r hr => ?_, ?_,
    onlyChanges_loadRegs_advance s x⟩
  · rw [State.advance_getV, State.getV_loadRegs_of_le hr]
  · exact keepsReg_loadRegs hr.not_ge
  · rw [State.advance_pc, State.loadRegs_pc]

/-- Settles O41: the load reads the cells the store wrote; it takes nothing from the registers it overwrites. -/
theorem storeThenLoadRestores : Obligations.StoreThenLoadRestores := by
  intro x s regs hrange
  have hload := exec_ldVxMem_of_inRange (s := { (s.setMem (s.memWithRegs x)).advance with v := regs }) hrange
  refine ⟨(s.setMem (s.memWithRegs x)).advance, _, exec_ldMemVx_of_inRange hrange, hload, fun r hr => ?_⟩
  rw [State.advance_getV, State.getV_loadRegs_of_le hr]
  exact State.memWithRegs_read hr

end Sys2Proof.Machine
end

section
/-! PROOFS. The display (spec 43_display.md): drawing a sprite flips the cells under its set pixels, and drawing it again
flips them back. -/

namespace Sys2Proof.Machine

variable {s : State} {x y n : Nibble} {row : Fin 32} {col : Fin 64}

/-! ## Frames of one change after another -/

theorem Part.same.trans {p : Part} {s t u : State} (h : p.same s t) (h' : p.same t u) : p.same s u := by
  cases p with
  | regs | stack | k | mem => exact fun j => (h' j).trans (h j)
  | fb => exact fun row col => (h' row col).trans (h row col)
  | rnd =>
    obtain ⟨hin, hcount⟩ := h
    obtain ⟨hin', hcount'⟩ := h'
    exact ⟨hin'.trans hin, hcount'.trans hcount⟩
  | _ => exact Eq.trans h' h

theorem OnlyChanges.trans {parts : List Part} {s t u : State} (h : OnlyChanges parts s t) (h' : OnlyChanges parts t u) :
    OnlyChanges parts s u := fun p hp => (h p hp).trans (h' p hp)

/-! ## CLS -/

theorem State.cell_setFb_zero (row : Fin 32) (col : Fin 64) :
    (s.setFb (Vector.replicate 32 0#64)).cell row col = false := by
  simp [State.cell]

/-- Settles O43: every row is zero, and the frame is that of a state with its display replaced. -/
theorem clearDisplay : Obligations.ClearDisplay := fun s =>
  ⟨(s.setFb (Vector.replicate 32 0#64)).advance, rfl, s.cell_setFb_zero, rfl, onlyChanges_of_eq_replace rfl,
    encode_eq_layout _⟩

/-! ## What a draw does -/

/-- The state a `Dxyn` with its sprite inside main memory leaves (43_display.md R121). -/
def State.draw (s : State) (x y n : Nibble) : State :=
  ((s.setFb (s.xorSprite (s.getV x).toNat (s.getV y).toNat n.toNat)).setV vf
    (s.collisionFlag (s.getV x).toNat (s.getV y).toNat n.toNat)).advance

theorem exec_drwVxVyN_of_inRange (hrange : n.toNat = 0 ∨ s.i.toNat + n.toNat - 1 ≤ 0xFFF) :
    exec (.drwVxVyN x y n) s = .next (s.draw x y n) := by
  have hnone : s.dataFault n.toNat = none := (s.dataFault_eq_none _).mpr hrange
  rw [exec_drwVxVyN, execDrwVxVyN, guardData, hnone, State.draw]

/-- The cell is the target of a set pixel of the draw, whose coordinates stand in `Vx` and `Vy`. -/
def DrawTarget (s : State) (x y n : Nibble) (row : Fin 32) (col : Fin 64) : Prop :=
  SpriteLit s (s.getV x).toNat (s.getV y).toNat n.toNat row.val col.val

/-- The mask of a row is set where a pixel of the sprite is: row and column determine the pixel (43_display.md R123). -/
theorem State.spriteMask_getLsbD_iff {x0 y0 n row col : Nat} (hcol : col < 64) :
    (s.spriteMask x0 y0 n row).getLsbD col = true ↔ SpriteLit s x0 y0 n row col := by
  simp only [s.spriteMask_getLsbD _ _ _ _ _ hcol, Bool.and_eq_true, decide_eq_true_eq]
  constructor
  · rintro ⟨⟨⟨hy, hrow⟩, hx, hcol⟩, hbit⟩
    exact ⟨row - y0, col - x0, by omega, hcol, by omega, by omega, hbit⟩
  · rintro ⟨r, c, hr, hc, rfl, rfl, hbit⟩
    simp only [Nat.add_sub_cancel_left]
    exact ⟨⟨by omega, by omega⟩, hbit⟩

@[simp] theorem State.draw_mem : (s.draw x y n).mem = s.mem := by simp [State.draw]
@[simp] theorem State.draw_i : (s.draw x y n).i = s.i := by simp [State.draw]
@[simp] theorem State.draw_pc : (s.draw x y n).pc = s.pc + 2#16 := by simp [State.draw]
@[simp] theorem State.draw_fb : (s.draw x y n).fb = s.xorSprite (s.getV x).toNat (s.getV y).toNat n.toNat := by
  simp [State.draw]

theorem State.draw_cell : (s.draw x y n).cell row col =
    (s.cell row col ^^ (s.spriteMask (s.getV x).toNat (s.getV y).toNat n.toNat row.val).getLsbD col.val) := by
  rw [State.cell, State.draw_fb, State.xorSprite_getElem, BitVec.getLsbD_xor, State.cell]

/-- A target is flipped. -/
theorem State.draw_cell_of_target (h : DrawTarget s x y n row col) : (s.draw x y n).cell row col = !s.cell row col := by
  rw [State.draw_cell, (State.spriteMask_getLsbD_iff col.isLt).mpr h, Bool.xor_true]

/-- A cell that is no target is kept. -/
theorem State.draw_cell_of_not_target (h : ¬ DrawTarget s x y n row col) :
    (s.draw x y n).cell row col = s.cell row col := by
  rw [State.draw_cell, Bool.eq_false_iff.mpr (mt (State.spriteMask_getLsbD_iff col.isLt).mp h), Bool.xor_false]

theorem State.draw_cell_ne_iff : (s.draw x y n).cell row col ≠ s.cell row col ↔ DrawTarget s x y n row col := by
  by_cases h : DrawTarget s x y n row col
  · simp [State.draw_cell_of_target h, h]
  · simp [State.draw_cell_of_not_target h, h]

theorem State.draw_getV_vf :
    (s.draw x y n).getV vf = s.collisionFlag (s.getV x).toNat (s.getV y).toNat n.toNat := by
  simp [State.draw, -State.setV_v]

theorem flagByte_eq_one_iff : ∀ b, flagByte b = 0x01#8 ↔ b = true := by decide

theorem flagByte_eq_one_or_zero : ∀ b, flagByte b = 0x01#8 ∨ flagByte b = 0x00#8 := by decide

/-- The flag is 1 exactly when a target was set. -/
theorem State.draw_flag_eq_one_iff :
    (s.draw x y n).getV vf = 0x01#8 ↔ ∃ row col, DrawTarget s x y n row col ∧ s.cell row col = true := by
  rw [State.draw_getV_vf, State.collisionFlag, flagByte_eq_one_iff, State.collides_iff]
  refine exists_congr fun row => exists_congr fun col => and_comm.trans (and_congr_left' ?_)
  exact State.spriteMask_getLsbD_iff col.isLt

theorem State.draw_flag_eq_one_or_zero : (s.draw x y n).getV vf = 0x01#8 ∨ (s.draw x y n).getV vf = 0x00#8 := by
  rw [State.draw_getV_vf]
  exact flagByte_eq_one_or_zero _

theorem regsKeptBut_draw : RegsKeptBut [vf] s (s.draw x y n) := by
  intro r hr
  rw [State.draw, State.advance_getV, State.getV_setV_ne _ _ (List.ne_of_not_mem_cons hr), State.setFb_getV]

/-- The frame of a draw, whatever the display and the flag are. -/
theorem onlyChanges_setFb_setV_advance (s : State) (f : Vector FbRow 32) (r : Nibble) (b : Byte) :
    OnlyChanges [.pc, .regs, .fb] s ((s.setFb f).setV r b).advance := onlyChanges_of_eq_replace rfl

theorem onlyChanges_draw : OnlyChanges [.pc, .regs, .fb] s (s.draw x y n) := by
  rw [State.draw]
  exact onlyChanges_setFb_setV_advance s _ vf _

/-- Settles O44: the cells by `State.draw_cell_ne_iff`, the flag by `State.draw_flag_eq_one_iff`. -/
theorem drawXorsSprite : Obligations.DrawXorsSprite := fun x y n s hrange =>
  ⟨s.draw x y n, exec_drwVxVyN_of_inRange hrange, fun _ _ => State.draw_cell_ne_iff, State.draw_flag_eq_one_iff.mpr,
    fun hnone => State.draw_flag_eq_one_or_zero.resolve_left (mt State.draw_flag_eq_one_iff.mp hnone), State.draw_pc,
    regsKeptBut_draw, onlyChanges_draw⟩

/-! ## A draw done twice -/

section Twice

variable (hx : x ≠ vf) (hy : y ≠ vf)

include hx hy

/-- A draw leaves memory and `I`, and its coordinates where they are not in `VF`: the same draw again has the same
targets. -/
theorem drawTarget_draw_iff : DrawTarget (s.draw x y n) x y n row col ↔ DrawTarget s x y n row col := by
  have hVx : (s.draw x y n).getV x = s.getV x := regsKeptBut_draw x (by simpa using hx)
  have hVy : (s.draw x y n).getV y = s.getV y := regsKeptBut_draw y (by simpa using hy)
  simp only [DrawTarget, SpriteLit, State.dataAddr, State.draw_mem, State.draw_i, hVx, hVy]

/-- A target is flipped twice, another cell never. -/
theorem State.draw_draw_cell (row : Fin 32) (col : Fin 64) :
    ((s.draw x y n).draw x y n).cell row col = s.cell row col := by
  by_cases h : DrawTarget s x y n row col
  · rw [State.draw_cell_of_target ((drawTarget_draw_iff hx hy).mpr h), State.draw_cell_of_target h, Bool.not_not]
  · rw [State.draw_cell_of_not_target (mt (drawTarget_draw_iff hx hy).mp h), State.draw_cell_of_not_target h]

/-- The second draw collides where the first set a blank cell. -/
theorem State.draw_draw_flag_eq_one_iff :
    ((s.draw x y n).draw x y n).getV vf = 0x01#8 ↔
      ∃ row col, DrawTarget s x y n row col ∧ s.cell row col = false := by
  rw [State.draw_flag_eq_one_iff]
  refine exists_congr fun row => exists_congr fun col => ?_
  rw [drawTarget_draw_iff hx hy]
  refine and_congr_right fun h => ?_
  rw [State.draw_cell_of_target h, Bool.not_eq_true']

/-- The display, which both draws write, reads as before. -/
theorem onlyChanges_draw_draw : OnlyChanges [.pc, .regs] s ((s.draw x y n).draw x y n) := by
  intro p hp
  by_cases hfb : p = .fb
  · rw [hfb]
    exact State.draw_draw_cell hx hy
  · exact onlyChanges_draw.trans onlyChanges_draw p (by simpa [hfb] using hp)

end Twice

/-- Settles O45: both draws have the same targets, `drawTarget_draw_iff`. -/
theorem drawTwiceRestores : Obligations.DrawTwiceRestores := fun x y n s hx hy hrange =>
  ⟨s.draw x y n, (s.draw x y n).draw x y n, exec_drwVxVyN_of_inRange hrange,
    exec_drwVxVyN_of_inRange (State.draw_i.symm ▸ hrange), State.draw_draw_cell hx hy,
    State.draw_draw_flag_eq_one_iff hx hy, State.draw_flag_eq_one_iff, State.draw_flag_eq_one_or_zero,
    State.draw_flag_eq_one_or_zero, fun r hr => (regsKeptBut_draw r hr).trans (regsKeptBut_draw r hr),
    onlyChanges_draw_draw hx hy⟩

end Sys2Proof.Machine
end

section
/-! PROOFS. The keypad and the timers (spec 44_keypad_timers.md): a key code in range selects its key, the wait for a key
stores the least code or polls, and the timers move to and from a register. -/

namespace Sys2Proof.Machine

variable {s : State} {x k : Nibble}

/-! ## Skips on a key -/

theorem skipOnKey_of_keyCode (h : (s.getV x).toNat = k.toNat) (i : Instr) (wanted : Bool) :
    skipOnKey i x wanted s = .next (s.skipIf (s.keyDown k == wanted)) := by
  have hk := k.isLt
  have hcode : (s.getV x).setWidth 4 = k := BitVec.eq_of_toNat_eq (by rw [BitVec.toNat_setWidth, h]; omega)
  rw [skipOnKey, if_neg (by omega), hcode]

theorem State.skipIf_true_pc : (s.skipIf true).pc = s.pc + 4#16 := BitVec.add_assoc s.pc 2#16 2#16

/-- Settles O47: the two skips want the key in opposite states. -/
theorem keySkips : Obligations.KeySkips := by
  intro x k s hcode
  refine ⟨s.skipIf (s.keyDown k == true), s.skipIf (s.keyDown k == false), skipOnKey_of_keyCode hcode _ true,
    skipOnKey_of_keyCode hcode _ false, fun hdown => ?_, fun hup => ?_, onlyChanges_skipIf s _, onlyChanges_skipIf s _⟩
  · rw [hdown]
    exact ⟨State.skipIf_true_pc, rfl⟩
  · rw [hup]
    exact ⟨rfl, State.skipIf_true_pc⟩

/-! ## The wait for a key -/

/-- The key found is the pressed one with the least code (R133, D8). -/
theorem State.firstKey_eq_some_toFin :
    s.firstKey = some k.toFin ↔ s.keyDown k = true ∧ ∀ j : Nibble, j.toNat < k.toNat → s.keyDown j = false :=
  s.firstKey_eq_some.trans (and_congr_right' ⟨fun h j => h j.toFin, fun h j => h (.ofFin j)⟩)

theorem State.firstKey_eq_none_iff_keyDown : s.firstKey = none ↔ ∀ j : Nibble, s.keyDown j = false :=
  s.firstKey_eq_none.trans ⟨fun h j => h j.toFin, fun h j => h (.ofFin j)⟩

theorem exec_ldVxK_of_firstKey (h : s.firstKey = some k.toFin) :
    exec (.ldVxK x) s = .next (s.loadV x (BitVec.ofNat 8 k.toNat)) := by
  rw [exec_ldVxK, execLdVxK, h]
  rfl

/-- `npc - 2` is the instruction's own address. -/
theorem State.setPc_npc_sub : s.setPc (s.npc - 2#16) = s :=
  congrArg s.setPc (BitVec.add_sub_cancel s.pc 2#16)

/-- Settles O48: a key code fits the byte of `Vx`. -/
theorem keyWaitStoresLeastCode : Obligations.KeyWaitStoresLeastCode := by
  intro x k s hdown hleast
  refine ⟨s.loadV x (BitVec.ofNat 8 k.toNat), exec_ldVxK_of_firstKey (State.firstKey_eq_some_toFin.mpr ⟨hdown, hleast⟩),
    ?_, rfl, regsKeptBut_loadV s x _, onlyChanges_loadV s x _⟩
  have hk := k.isLt
  rw [State.loadV_getV_same, BitVec.toNat_ofNat]
  omega

/-- Settles O49: the poll sets `PC` back to where it stands. -/
theorem keyWaitPolls : Obligations.KeyWaitPolls := by
  intro x s hup
  rw [exec_ldVxK, execLdVxK, State.firstKey_eq_none_iff_keyDown.mpr hup]
  exact congrArg _ State.setPc_npc_sub

/-! ## Timer moves -/

theorem onlyChanges_setDt_advance (s : State) (b : Byte) : OnlyChanges [.pc, .dt] s (s.setDt b).advance :=
  onlyChanges_of_eq_replace rfl

theorem onlyChanges_setSt_advance (s : State) (b : Byte) : OnlyChanges [.pc, .st] s (s.setSt b).advance :=
  onlyChanges_of_eq_replace rfl

/-- Settles O50: the read is a load of `Vx` like any other, so that `DT` is in its frame. -/
theorem timerMoves : Obligations.TimerMoves := by
  intro x s
  refine ⟨s.loadV x s.dt, (s.setDt (s.getV x)).advance, (s.setSt (s.getV x)).advance, rfl, rfl, rfl,
    s.loadV_getV_same x _, rfl, rfl, ?_, regsKeptBut_loadV s x _, onlyChanges_loadV s x _,
    onlyChanges_setDt_advance s _, onlyChanges_setSt_advance s _, encode_eq_layout _, encode_eq_layout _,
    encode_eq_layout _⟩
  simp

end Sys2Proof.Machine
end

section
/-! PROOFS. Fault entry (spec 60_exceptions.md R140 to R152): where each instruction faults, and what a step that halts the
machine records and leaves alone. -/

namespace Sys2Proof.Machine

variable {s t : State} {i : Instr}

/-! ## Fault entry (R152) -/

theorem onlyChanges_halt (s : State) (c : FaultCause) (opcode info : Word) :
    OnlyChanges [.status, .fault] s (s.halt c opcode info) := onlyChanges_of_eq_replace rfl

theorem haltedWith_halt (s : State) (c : FaultCause) (opcode info : Word) :
    HaltedWith c opcode info s (s.halt c opcode info) := ⟨rfl, rfl, onlyChanges_halt s c opcode info⟩

/-- The lowest address above 0xFFF from `a` on, as R140 writes it for `PC` and for `I`. -/
theorem ofNat_max_memSize (a : Word) :
    BitVec.ofNat 16 (max a.toNat 0x1000) = if a.toNat < 0x1000 then 0x1000#16 else a := by
  split
  · next h => rw [max_eq_right h.le]
  · next h => rw [max_eq_left (not_lt.mp h), BitVec.ofNat_toNat, BitVec.setWidth_eq]

/-! ## Faults before execution -/

/-- Settles O10: the address reported is that of the first byte that cannot be fetched. -/
theorem fetchAboveMemoryHalts : Obligations.FetchAboveMemoryHalts := by
  intro s hrun hpc
  have hfetch := s.fetch_eq_error.mpr ⟨hpc, rfl⟩
  refine ⟨s.fetchFault (max s.pc.toNat 0x1000), by simp only [step, hrun, hfetch], ?_⟩
  rw [← ofNat_max_memSize]
  exact haltedWith_halt s _ _ _

/-- A word that no row of the opcode map selects does not decode. -/
theorem exists_decodeWord_eq_error {w : Word} (h : wordWellFormed w = false) : ∃ e, decodeWord w = .error e := by
  cases hdec : decodeWord w with
  | error e => exact ⟨e, rfl⟩
  | ok i => exact absurd (decodes_iff_wordWellFormed.mp ⟨i, hdec⟩) (by simp [h])

/-- Settles O11: such a word does not decode, `exists_decodeWord_eq_error`. -/
theorem unrecognizedOpcodeHalts : Obligations.UnrecognizedOpcodeHalts := by
  intro s w hrun hpc hw hrow
  have hfetch := s.fetch_eq_ok.mpr ⟨hpc, hw⟩
  obtain ⟨e, hdec⟩ := exists_decodeWord_eq_error hrow
  exact ⟨s.decodeFault w, by simp only [step, hrun, hfetch, hdec], haltedWith_halt s _ _ _⟩

/-! ## Faults of execution -/

/-- The instruction halts with the fault the table gives it in this state, or the table gives it none and it completes
(R140, R147). -/
def FollowsTable (i : Instr) (s : State) : Prop :=
  (∃ c info, faultOf i s = some (c, info) ∧ exec i s = .next (s.halt c (encode i) info)) ∨
  (faultOf i s = none ∧ ∃ t, exec i s = .next t ∧ t.status = s.status ∧ t.fault = s.fault)

theorem FollowsTable.completes (htable : faultOf i s = none) (h : exec i s = .next t) (hstatus : t.status = s.status)
    (hfault : t.fault = s.fault) : FollowsTable i s := .inr ⟨htable, t, h, hstatus, hfault⟩

/-- The range check of the data addresses is the one of the table (R143). -/
theorem FollowsTable.guarded {count : Nat}
    (htable : faultOf i s = if count ≠ 0 ∧ s.i.toNat + count - 1 > 0xFFF then
      some (.dataOutOfRange, if s.i.toNat < 0x1000 then 0x1000#16 else s.i) else none)
    (h : exec i s = guardData i count s t) (hstatus : t.status = s.status) (hfault : t.fault = s.fault) :
    FollowsTable i s := by
  rcases guardData_cases i count s t with ⟨hnone, hguard⟩ | ⟨a, hsome, hguard⟩
  · have hin := (s.dataFault_eq_none count).mp hnone
    exact .completes (htable.trans (if_neg (by omega))) (h.trans hguard) hstatus hfault
  · obtain ⟨hcount, hout, rfl⟩ := (s.dataFault_eq_some count a).mp hsome
    exact .inl ⟨_, _, htable.trans (if_pos ⟨hcount, hout⟩), by rw [h, hguard, ofNat_max_memSize]⟩

/-- So is the check of the key code (R146). -/
theorem FollowsTable.keySkip {x : Nibble} {wanted : Bool}
    (htable : faultOf i s = if (s.getV x).toNat > 15 then
      some (.keyIndexOutOfRange, BitVec.ofNat 16 (s.getV x).toNat) else none)
    (h : exec i s = skipOnKey i x wanted s) : FollowsTable i s := by
  by_cases hcode : (s.getV x).toNat > 15
  · refine .inl ⟨_, _, htable.trans (if_pos hcode), ?_⟩
    rw [h, skipOnKey, if_pos hcode, BitVec.ofNat_toNat]
    rfl
  · exact .completes (htable.trans (if_neg hcode)) (h.trans (if_neg hcode)) rfl rfl

/-- RET pops wherever the stack is not empty, if `SP` has a value of R24 (R145). -/
theorem followsTable_ret (hsp : SpLegal s.sp) : FollowsTable .ret s := by
  by_cases hempty : s.sp = 0x0F#8
  · refine .inl ⟨_, _, if_pos hempty, ?_⟩
    simp [execRet, State.stackEmpty, hempty, raise, zext8]
  · have hnext : (s.sp + 1#8).toNat < 16 := by
      rcases hsp with hlow | hfull
      · bv_omega
      · rw [hfull]; decide
    exact .completes (if_neg hempty) (exec_ret_of_next_sp rfl hnext) rfl rfl

/-- CALL pushes wherever the stack is not full (R144). -/
theorem followsTable_callNnn (nnn : Addr12) (hsp : SpLegal s.sp) : FollowsTable (.callNnn nnn) s := by
  by_cases hfull : s.sp = 0xFF#8
  · refine .inl ⟨_, _, if_pos hfull, ?_⟩
    simp [execCallNnn, State.stackFull, hfull, raise, zext8]
  · have hroom : s.sp.toNat < 16 := Nat.lt_succ_of_le (hsp.resolve_right hfull)
    exact .completes (if_neg hfull) (exec_callNnn_of_room nnn hroom) rfl rfl

/-- LD Vx, K completes with a key and without (R133). -/
theorem followsTable_ldVxK (x : Nibble) : FollowsTable (.ldVxK x) s := by
  cases hkey : s.firstKey with
  | some k => exact .completes rfl (exec_ldVxK_of_firstKey (k := .ofFin k) hkey) rfl rfl
  | none => exact .completes rfl (keyWaitPolls x s (State.firstKey_eq_none_iff_keyDown.mp hkey)) rfl rfl

/-- Every instruction follows the fault table. -/
theorem followsTable (i : Instr) (hsp : SpLegal s.sp) : FollowsTable i s := by
  cases i with
  | ret => exact followsTable_ret hsp
  | callNnn nnn => exact followsTable_callNnn nnn hsp
  | ldVxK x => exact followsTable_ldVxK x
  | skpVx _ | sknpVx _ => exact .keySkip rfl rfl
  | drwVxVyN _ _ _ | ldBVx _ | ldMemVx _ | ldVxMem _ => exact .guarded rfl rfl (by simp) (by simp)
  | rndVxNn x nn => exact .completes rfl rfl (by simp [State.loadV]) (by simp [State.loadV])
  | cls | jpNnn _ | jpV0Nnn _ | seVxNn _ _ | sneVxNn _ _ | seVxVy _ _ | sneVxVy _ _ => exact .completes rfl rfl rfl rfl
  | ldVxNn _ _ | addVxNn _ _ | ldVxVy _ _ | orVxVy _ _ | andVxVy _ _ | xorVxVy _ _ => exact .completes rfl rfl rfl rfl
  | addVxVy _ _ | subVxVy _ _ | shrVx _ _ | subnVxVy _ _ | shlVx _ _ => exact .completes rfl rfl rfl rfl
  | ldINnn _ | addIVx _ | ldFVx _ | ldVxDt _ | ldDtVx _ | ldStVx _ => exact .completes rfl rfl rfl rfl

/-- Settles O12: the two cases of `followsTable` exclude each other. -/
theorem executionFaultsAreExactlyTheTable : Obligations.ExecutionFaultsAreExactlyTheTable := by
  intro i s hrun hsp
  rcases followsTable i hsp with ⟨c, info, htable, hexec⟩ | ⟨htable, t, hexec, hstatus, hfault⟩
  · refine ⟨fun cause info' h => ?_, fun h => by simp [h] at htable⟩
    cases htable.symm.trans h
    exact ⟨_, hexec, haltedWith_halt s _ _ _⟩
  · exact ⟨fun cause info h => by simp [h] at htable, fun _ => ⟨t, hexec, hstatus.trans hrun, hfault⟩⟩

/-! ## A step that halts -/

/-- What R152 asks of fault entry, seen over a whole step from `s` to `t`. -/
def RecordsFault (s t : State) : Prop :=
  OnlyChanges [.status, .fault] s t ∧ t.fault.cause ≠ .none ∧ t.fault.pc = s.pc ∧
    (t.fault.cause = .fetchOutOfRange → t.fault.opcode = 0x0000#16) ∧
    (t.fault.cause ≠ .fetchOutOfRange →
      t.fault.opcode = wordOfBytes (s.mem.read s.pc.toNat) (s.mem.read (s.pc.toNat + 1)))

theorem recordsFault_fetch (info : Word) : RecordsFault s (s.halt .fetchOutOfRange 0x0000#16 info) :=
  ⟨onlyChanges_halt s _ _ _, nofun, rfl, fun _ => rfl, fun h => absurd rfl h⟩

theorem recordsFault_of_fetched {w info : Word} {c : FaultCause} (hfetch : s.fetch = .ok w) (hc : c ≠ .none)
    (hne : c ≠ .fetchOutOfRange) : RecordsFault s (s.halt c w info) :=
  ⟨onlyChanges_halt s _ _ _, hc, rfl, fun h => absurd h hne, fun _ => (s.fetch_eq_ok.mp hfetch).2⟩

/-- Settles O13: a step halts the machine by fault entry alone, and an instruction's word is the one fetched. -/
theorem haltingStepChangesNothingElse : Obligations.HaltingStepChangesNothingElse := by
  intro s t hrun ht hhalted
  rcases step_cases s with ⟨hs, -⟩ | ⟨-, -, hstep⟩ | ⟨w, e, -, hfetch, -, hstep⟩ | ⟨w, i, -, hfetch, hdec, hstep⟩
  · simp [hrun] at hs
  · cases hstep.symm.trans ht
    exact recordsFault_fetch _
  · cases hstep.symm.trans ht
    exact recordsFault_of_fetched hfetch nofun nofun
  · rw [hstep] at ht
    rcases exec_cases i s with ⟨c, info, hexec, hc, hne⟩ | ⟨u, hexec, hstatus, -⟩ | ⟨hexec, -, -⟩
    · cases hexec.symm.trans ht
      rw [decodeWord_eq_ok_iff.mp hdec]
      exact recordsFault_of_fetched hfetch hc hne
    · cases hexec.symm.trans ht
      simp [hstatus, hrun] at hhalted
    · cases hexec.symm.trans ht

end Sys2Proof.Machine
end

section
/-! PROOFS. The boundary operations (spec 60_exceptions.md R153 to R159): what they do to a halted machine and to a running
one, one at a time and over a schedule. -/

namespace Sys2Proof.Machine

variable {s : State}

/-! ## One operation -/

theorem step_of_halted (h : s.status = .halted) : step s = .next s := by
  simp only [step, h]

/-- The byte handed over is put back unread. -/
theorem stepWith_of_halted (h : s.status = .halted) (rnd : Byte) : stepWith rnd s = .next s := by
  rw [stepWith_eq_mapNext, step_of_halted (s := s.setRndIn (rnd :: s.rndIn)) h]
  rfl

theorem tick_of_halted (h : s.status = .halted) : tick s = s := by
  simp only [tick, h]

theorem tick_of_running (h : s.status = .running) : tick s = (s.setDt (countDown s.dt)).setSt (countDown s.st) := by
  simp only [tick, h]

/-- An accepted image leaves the reset state with the image placed (70_reset_and_hazards.md R170, R171). -/
theorem resetImage_of_accepted {image : List Byte} (h : image.length ≤ 3584) :
    resetImage image = .next (State.reset.setMem (State.reset.mem.writeBytes Config.progBase image)) :=
  if_pos (decide_eq_true h)

@[simp] theorem tick_status (s : State) : (tick s).status = s.status := by
  unfold tick
  split <;> rfl

theorem onlyChanges_tick (s : State) : OnlyChanges [.dt, .st] s (tick s) := by
  unfold tick
  split <;> exact onlyChanges_of_eq_replace rfl

theorem tick_dt_toNat (h : s.status = .running) : (tick s).dt.toNat = s.dt.toNat - 1 := by
  rw [tick_of_running h]
  exact countDown_toNat s.dt

theorem tick_st_toNat (h : s.status = .running) : (tick s).st.toNat = s.st.toNat - 1 := by
  rw [tick_of_running h]
  exact countDown_toNat s.st

/-- Settles O51: the two timers count down apart, each by `countDown_toNat`. -/
theorem tickCountsDown : Obligations.TickCountsDown := fun s =>
  ⟨fun hrun => ⟨tick_dt_toNat hrun, tick_st_toNat hrun⟩, tick_of_halted, onlyChanges_tick s⟩

theorem State.keyDown_keyWrite_same (s : State) (k : Nibble) (v : Bool) : (keyWrite k v s).keyDown k = v :=
  (s.keyDown_keyWrite k k v).trans (if_pos rfl)

/-- Settles O53: the cell by `State.keyDown_keyWrite_same`, the frame is that of a state with its keys replaced. -/
theorem keyWriteSetsOneCell : Obligations.KeyWriteSetsOneCell := fun k v s =>
  ⟨keyWrite k v s, rfl, s.keyDown_keyWrite_same k v,
    fun j hj => (s.keyDown_keyWrite k j v).trans (if_neg hj), onlyChanges_of_eq_replace rfl⟩

/-- Settles O14: `STATUS` stops `Step` and `Tick`; the other operations do not look at it. -/
theorem haltedMachineStandsStill : Obligations.HaltedMachineStandsStill := fun s h =>
  ⟨step_of_halted h, stepWith_of_halted h, tick_of_halted h, fun k v => ⟨s.keyDown_keyWrite_same k v, h⟩,
    congrArg (Reply.status · s.fault) h, fun _ hlen => ⟨_, resetImage_of_accepted hlen, rfl, rfl⟩⟩

/-! ## Schedules -/

/-- If every operation of a schedule answers and keeps a property, so does the schedule. -/
theorem runOperations_keeps {P : State → Prop} {allowed : Operation → Prop}
    (hkeeps : ∀ op s, allowed op → P s → ∃ t, operate op s = .next t ∧ P t) {ops : List Operation}
    (hops : ∀ op ∈ ops, allowed op) (hs : P s) : ∃ t, runOperations ops s = .next t ∧ P t := by
  induction ops generalizing s with
  | nil => exact ⟨s, rfl, hs⟩
  | cons op ops ih =>
    obtain ⟨hop, hops⟩ := List.forall_mem_cons.mp hops
    obtain ⟨u, hu, hPu⟩ := hkeeps op s hop hs
    rw [runOperations_cons_next s hu]
    exact ih hops hPu

/-- No operation but `Reset` takes a machine out of HALTED or writes `FAULT` there (R153, R154). -/
theorem operate_of_halted {op : Operation} (hop : ∀ image, op ≠ .reset image) (h : s.status = .halted) :
    ∃ t, operate op s = .next t ∧ t.status = .halted ∧ t.fault = s.fault := by
  cases op with
  | reset image => exact absurd rfl (hop image)
  | step rnd => exact ⟨s, stepWith_of_halted h rnd, h, rfl⟩
  | tick => exact ⟨s, congrArg _ (tick_of_halted h), h, rfl⟩
  | keyWrite k v => exact ⟨keyWrite k v s, rfl, h, rfl⟩
  | fbRead _ | soundRead | statusRead => exact ⟨s, rfl, h, rfl⟩

/-- Settles O15: each operation of the schedule keeps HALTED and `FAULT`, `operate_of_halted`. -/
theorem onlyResetLeavesHalted : Obligations.OnlyResetLeavesHalted := by
  intro ops s h hops
  refine runOperations_keeps (allowed := fun op => ∀ image, op ≠ .reset image)
    (P := fun t => t.status = .halted ∧ t.fault = s.fault) ?_ ?_ ⟨h, rfl⟩
  · intro op u hop hu
    obtain ⟨t, ht, hstatus, hfault⟩ := operate_of_halted hop hu.1
    exact ⟨t, ht, hstatus, hfault.trans hu.2⟩
  · rintro op hmem image rfl
    exact hops image hmem

/-- No operation but `Step` halts a running machine (R147, R150). -/
theorem operate_of_running {op : Operation} (hstep : ∀ rnd, op ≠ .step rnd)
    (himage : ∀ image, op = .reset image → image.length ≤ 3584) (h : s.status = .running) :
    ∃ t, operate op s = .next t ∧ t.status = .running := by
  cases op with
  | reset image => exact ⟨_, resetImage_of_accepted (himage image rfl), rfl⟩
  | step rnd => exact absurd rfl (hstep rnd)
  | tick => exact ⟨tick s, rfl, (tick_status s).trans h⟩
  | keyWrite k v => exact ⟨keyWrite k v s, rfl, h⟩
  | fbRead _ | soundRead | statusRead => exact ⟨s, rfl, h⟩

/-- Settles O16: each operation keeps RUNNING, however many of the schedule are taken, `operate_of_running`. -/
theorem onlyStepsCanHalt : Obligations.OnlyStepsCanHalt := fun _ _ h hops _ =>
  runOperations_keeps (fun _ _ hop => operate_of_running hop.1 hop.2) (fun op hop => hops op (List.mem_of_mem_take hop)) h

/-- Settles O52, by induction on the number of ticks: the first leaves a running machine with the timers one lower. -/
theorem ticksReachZero : Obligations.TicksReachZero := by
  intro n s hrun
  induction n generalizing s with
  | zero => exact ⟨s, rfl, rfl, rfl, onlyChanges_of_eq_replace rfl⟩
  | succ n ih =>
    obtain ⟨t, ht, hdt, hst, hframe⟩ := ih (tick s) ((tick_status s).trans hrun)
    refine ⟨t, ?_, ?_, ?_, (onlyChanges_tick s).trans hframe⟩
    · rw [List.replicate_succ, runOperations_cons_next s rfl, ht]
    · rw [hdt, tick_dt_toNat hrun]
      omega
    · rw [hst, tick_st_toNat hrun]
      omega

end Sys2Proof.Machine
end

section
/-! PROOFS. Reset with an image (spec 70_reset_and_hazards.md R170, R171), and that from a legal state nothing can stop a step
or another operation (R186). -/

namespace Sys2Proof.Machine

variable {s : State} {image : List Byte}

/-! ## The image and the memory `Reset` leaves -/

theorem resetImage_of_tooLong (h : image.length > 3584) : resetImage image = .refused (.imageTooLong image.length) :=
  if_neg fun haccepted => not_le.mpr h (of_decide_eq_true haccepted)

/-- Image, font and zeros, which do not overlap: what `Reset` with an accepted image leaves in memory (R170). -/
def resetMem (image : List Byte) : Memory := State.reset.mem.writeBytes Config.progBase image

theorem resetMem_read_image {j : Nat} (h : j < image.length) : (resetMem image).read (0x200 + j) = image[j] :=
  Memory.read_writeBytes_add _ _ h

theorem resetMem_read_outside {a : Nat} (h : a < 0x200 ∨ 0x200 + image.length ≤ a) :
    (resetMem image).read a = Memory.unlisted a := by
  refine Memory.read_writeBytes_of_outside fun k hk => ?_
  rw [Config.progBase]
  omega

theorem resetMem_read_font {j : Nat} (h : j < 80) : (resetMem image).read (0x100 + j) = fontByte j := by
  rw [resetMem_read_outside (by omega), Memory.unlisted_font h]

theorem resetMem_read_zero {a : Nat} (h : a < 0x100 ∨ (0x150 ≤ a ∧ a < 0x200) ∨ 0x200 + image.length ≤ a) :
    (resetMem image).read a = 0x00#8 := by
  rw [resetMem_read_outside (by omega), Memory.unlisted_of_not_font (by omega)]

/-- Settles O7: `resetMem` read in each of its ranges. -/
theorem resetPlacesImage : Obligations.ResetPlacesImage := fun image =>
  ⟨fun hlen => ⟨State.reset.setMem (resetMem image), resetImage_of_accepted hlen, onlyChanges_of_eq_replace rfl,
    fun _ => resetMem_read_image, fun _ => resetMem_read_font, fun _ => resetMem_read_zero⟩, resetImage_of_tooLong⟩

/-! ## Steps and operations answer -/

/-- With an `SP` of R24 (b) an instruction halts with the fault of the table or completes; it never wants a stack entry. -/
theorem exec_answers (i : Instr) (hsp : SpLegal s.sp) : ∃ t, exec i s = .next t := by
  rcases followsTable i hsp with ⟨c, info, -, hexec⟩ | ⟨-, t, hexec, -, -⟩
  · exact ⟨_, hexec⟩
  · exact ⟨t, hexec⟩

theorem step_answers (hsp : SpLegal s.sp) : ∃ t, step s = .next t := by
  rcases step_cases s with ⟨-, hstep⟩ | ⟨-, -, hstep⟩ | ⟨w, e, -, -, -, hstep⟩ | ⟨w, i, -, -, -, hstep⟩
  · exact ⟨s, hstep⟩
  · exact ⟨_, hstep⟩
  · exact ⟨_, hstep⟩
  · exact hstep ▸ exec_answers i hsp

theorem Legal.spLegal (h : Legal s) : SpLegal s.sp := by
  obtain ⟨-, -, hsp, -⟩ := h
  exact hsp

/-- Settles O57: of what makes a state legal, `step_answers` needs the range of `SP`. -/
theorem legalStepAnswers : Obligations.LegalStepAnswers := fun _ h => step_answers h.spLegal

theorem stepWith_answers (rnd : Byte) (hsp : SpLegal s.sp) : ∃ t, stepWith rnd s = .next t := by
  obtain ⟨t, ht⟩ := step_answers (s := s.setRndIn (rnd :: s.rndIn)) hsp
  exact ⟨t.setRndIn s.rndIn, by rw [stepWith_eq_mapNext, ht]; rfl⟩

theorem operate_answers {op : Operation} (hsp : SpLegal s.sp)
    (himage : ∀ image, op = .reset image → image.length ≤ 3584) : ∃ t, operate op s = .next t := by
  cases op with
  | reset image => exact ⟨_, resetImage_of_accepted (himage image rfl)⟩
  | step rnd => exact stepWith_answers rnd hsp
  | tick => exact ⟨tick s, rfl⟩
  | keyWrite k v => exact ⟨keyWrite k v s, rfl⟩
  | fbRead _ | soundRead | statusRead => exact ⟨s, rfl⟩

/-- Settles O58: the operation answers by `operate_answers`, and what answers is legal by `operate_ensures_legal`. -/
theorem operationsKeepLegal : Obligations.OperationsKeepLegal := by
  intro op s hlegal himage
  obtain ⟨t, ht⟩ := operate_answers hlegal.spLegal himage
  exact ⟨t, ht, operate_ensures_legal op hlegal t ht⟩

end Sys2Proof.Machine
end

section
/-! PROOFS. Several requests in one cycle (spec 70_reset_and_hazards.md R181): the order of its writes, and its reads. -/

namespace Sys2Proof.Machine

variable {r : Requests} {s t : State}

/-! ## A cycle with a `Reset` -/

theorem cycle_reset_alone {image : List Byte} (hr : r.reset = some image) (h : resetImage image = .next t)
    (hk : r.keyWrite = none) : (cycle r s).1 = .next t := by
  rw [cycle_reset s hr h, hk, Option.elim_none]

theorem cycle_reset_keyWrite {image : List Byte} {k : Nibble} {v : Bool} (hr : r.reset = some image)
    (h : resetImage image = .next t) (hk : r.keyWrite = some (k, v)) : (cycle r s).1 = .next (keyWrite k v t) := by
  rw [cycle_reset s hr h, hk, Option.elim_some]

/-- A refused `Reset` is the first operation of the cycle, and the last. -/
theorem cycle_reset_refused {image : List Byte} {e : Refusal} (hr : r.reset = some image)
    (h : resetImage image = .refused e) : (cycle r s).1 = .refused e := by
  simp [cycle, Requests.order, hr, runOperations, operate, h]

/-! ## A cycle without one -/

/-- The state the `Step` and the `Tick` of a cycle without `Reset` find: `s` after the `KeyWrite` where it was requested. -/
def afterKeyWrite (r : Requests) (s : State) : State := r.keyWrite.elim s fun p => keyWrite p.1 p.2 s

/-- The two clauses of R181 about `KeyWrite` determine the state. -/
theorem eq_afterKeyWrite (hnone : r.keyWrite = none → t = s)
    (hsome : ∀ k v, r.keyWrite = some (k, v) → t = keyWrite k v s) : t = afterKeyWrite r s := by
  unfold afterKeyWrite
  cases hk : r.keyWrite with
  | none => exact hnone hk
  | some p => exact hsome p.1 p.2 hk

theorem runOperations_tick_if (b : Bool) (s : State) :
    runOperations (if b then [.tick] else []) s = .next (if b then tick s else s) := by
  cases b <;> rfl

theorem cycle_without_step (hr : r.reset = none) (hs : r.step = none) :
    (cycle r s).1 = .next (if r.tick then tick (afterKeyWrite r s) else afterKeyWrite r s) := by
  rw [cycle_no_reset s hr, hs]
  exact runOperations_tick_if r.tick _

theorem cycle_step_next {rnd : Byte} (hr : r.reset = none) (hs : r.step = some rnd)
    (h : stepWith rnd (afterKeyWrite r s) = .next t) : (cycle r s).1 = .next (if r.tick then tick t else t) := by
  rw [cycle_no_reset s hr, hs]
  exact (runOperations_cons_next (op := .step rnd) _ h).trans (runOperations_tick_if r.tick t)

theorem cycle_step_fault {rnd : Byte} {f : Fault} (hr : r.reset = none) (hs : r.step = some rnd)
    (h : stepWith rnd (afterKeyWrite r s) = .fault f) : (cycle r s).1 = .fault f := by
  rw [cycle_no_reset s hr, hs]
  show runOperations (.step rnd :: _) (afterKeyWrite r s) = .fault f
  simp only [runOperations, operate, h]

/-! ## The reads of a cycle -/

theorem cycle_fb_none (h : r.fbRead = none) : (cycle r s).2.fb = none := by
  simp only [cycle, Requests.replies, h, Option.map_none]

theorem cycle_fb_some {i : Fin 2048} {row : Fin 32} {col : Fin 64} (h : r.fbRead = some i)
    (hi : i.val = 64 * row.val + col.val) : (cycle r s).2.fb = some (.cell (s.cell row col)) := by
  simp only [cycle, Requests.replies, h, Option.map_some, reply, fbRead_eq_cell s i row col hi]

theorem cycle_sound (r : Requests) (s : State) :
    (cycle r s).2.sound = if r.soundRead then some (.sound s.st (decide (s.st ≠ 0x00#8))) else none := by
  rw [← soundActive_eq_decide]
  rfl

/-- Settles O54: with a `Reset`, without one, and the reads, each by its lemma above. -/
theorem cycleSerialisesRequests : Obligations.CycleSerialisesRequests := by
  intro r s
  refine ⟨fun image hr => ⟨fun t ht => ?_, fun e => cycle_reset_refused hr⟩, fun hr s₁ hnone hsome => ?_,
    ⟨cycle_fb_none, fun i row col => cycle_fb_some⟩, cycle_sound r s, rfl⟩
  · exact ⟨cycle_reset_alone hr ht, fun k v => cycle_reset_keyWrite hr ht⟩
  · obtain rfl := eq_afterKeyWrite hnone hsome
    exact ⟨cycle_without_step hr, fun rnd hs => ⟨fun t => cycle_step_next hr hs, fun f => cycle_step_fault hr hs⟩⟩

end Sys2Proof.Machine
end
